-- ==== Sys2Proof/Word.lean ====
section
/-!
DEFINITION. The values this hardware computes with: a Bit (R6: "a single binary value, 0 or 1"), a 32-bit
command word (R5), a byte of the buffer memory (R50) and a 24-bit byte address (R29).
-/

namespace Sys2Proof

/-- A Bit (R6): `false` is 0, `true` is 1. There is no third value (93 U8). -/
abbrev Bit := Bool

/-- A command word (R5, R70): 32 bits, bit 0 the least significant. -/
abbrev Word := BitVec 32

/-- A byte of the buffer memory (R50), 0 to 255. -/
abbrev Byte := BitVec 8

/-- What `SRCBASE` and `DSTBASE` hold (R29): an unsigned 24-bit byte address. -/
abbrev Addr := BitVec 24

end Sys2Proof
end

