-- ==== Sys2Proof/Config.lean ====
section
/-!
DEFINITION. The implementation parameters of R4 and the free values. The parameters a model "takes as arguments"
(`MAX_W`, `MAX_H`, `BUF_BYTES`) are the record `Config`, which every state carries unchanged (LOG 3); the ones
with a single value are constants.
-/

namespace Sys2Proof

/-- The open parameters of R4 (93 U16): the largest width and height a slot holds, and the size of `BUF`. -/
structure Config where
  maxW : Nat
  maxH : Nat
  bufBytes : Nat
deriving DecidableEq, Repr

/-- The defaults of R4: "1000, 1000" and "2^24 = 16,777,216 bytes". -/
def Config.standard : Config where
  maxW := 1000
  maxH := 1000
  bufBytes := 16777216

/-- The bounds R4 puts on the open parameters: `MAX_W, MAX_H ≤ 1023` and `BUF_BYTES ≤ 2^24`. -/
abbrev Config.Admitted (c : Config) : Prop :=
  c.maxW ≤ 1023 ∧ c.maxH ≤ 1023 ∧ c.bufBytes ≤ 16777216

/-- `IMG_WIDTH` of R4: a constant of the surrounding flows that no command checks (D34). -/
def Config.imgWidth : Nat := 500

/-- `IMG_HEIGHT` of R4: a constant of the surrounding flows that no command checks (D34). -/
def Config.imgHeight : Nat := 500

/-- `DEFAULT_BIT` of R4: 0. -/
def Config.defaultBit : Bit := false

/-- FREE VALUE (LOG 1). The byte at an address of `BUF` that nothing has written: R50, "a model treats an unwritten
byte as a free value, never as 0". It has no body: no proof can learn it. -/
opaque Config.bufByte : Nat → Byte

/-- FREE VALUE (LOG 4). The bit at a position of the endless randomness stream with the given number: R114, "a model
treats every draw as a free Bit under no law". It has no body: no proof can learn it. -/
opaque Config.endlessBit : Nat → Nat → Bit

end Sys2Proof
end

