-- ==== Sys2Proof/Syntax.lean ====
section
/-!
DEFINITION. The ten commands of R72, one constructor per row of spec/opcode_table.json, with their operands in the
order of R86. `row`, `col`, `width`, `height` are the unsigned integers R80 makes of their fields (R5: arithmetic is on
unbounded naturals); that they fit their fields is `Instr.wellFormed`.
-/

namespace Sys2Proof

/-- A grid slot number (R21, R80): 0 = G0 to 3 = G3, all four legal in every slot field. -/
inductive Slot where
  | g0
  | g1
  | g2
  | g3
deriving DecidableEq, Repr

/-- The commands (R72). -/
inductive Instr where
  | inv (b : Bit)
  | settile (g : Slot) (row col : Nat) (lead foll : Bit)
  | randshare (gd : Slot) (width height : Nat)
  | encode (gd gs gr : Slot)
  | recover (gd ga gb : Slot)
  | tobg (gd : Slot) (width height : Nat)
  | frbg (gs : Slot)
  | setsrc (addr : Addr)
  | setdst (addr : Addr)
  | gnew (gd : Slot) (width height : Nat)
deriving DecidableEq, Repr

end Sys2Proof
end

