-- ==== Sys2Proof/Machine/State.lean ====
section
/-!
DEFINITION. The state of the block and of the environment it touches (R20, R9), the state after reset (R200), the
spec's eight fault causes (R171), and the reasons a step of the model can stop. All of it is plain data.
-/

namespace Sys2Proof.Machine

/-- The fault causes of R171. Raising one is a next state of the machine (R172), not a stop of the model. -/
inductive Cause where
  | illegalCommand
  | dimRange
  | oddDimension
  | slotInvalid
  | dimMismatch
  | tileRange
  | addrRange
  | rngExhausted
deriving DecidableEq, Repr

/-- Why the model takes no step. -/
inductive Fault where
  /-- `FAULT ≠ 0`: the core is halted and only reset leaves this state (R26, R172; 93 U18). Raised by the fetch. Safe:
  the machine itself takes no step. -/
  | halted
  /-- `FAULT = 0` and `pc = len(prog)`: the run has ended normally and the state is final (R26, R203; 93 U18). Raised by
  the fetch. Safe: the machine itself takes no step. -/
  | runEnded
  /-- `pc > len(prog)`: no command stands there and R26 gives no step. Raised by the fetch; no run reaches such a
  state (LOG 6). Safe: the model stops. -/
  | pcPastEnd
deriving DecidableEq, Repr

/-- What the model refuses. -/
inductive Refusal where
  /-- An instruction that has no meaning yet; raised by an arm of `exec`. No arm raises it now. Safe. -/
  | notModelled (mnemonic : String)
  /-- A `prog` of 2^32 words or more (R25: "not admitted"; 93 U17: refuse). Raised by the fetch and by the host's move
  that supplies `prog`. Safe. -/
  | progNotAdmitted
  /-- A host move while a run is in progress (R207, R11; 93 U9: refuse). Raised by the host's moves. Safe. -/
  | hostDuringRun
  /-- The host writes or reads an address at or above `BUF_BYTES`, where there is no byte (R50). Raised by the host's
  moves. Safe. -/
  | noSuchByte
deriving DecidableEq, Repr

/-- A Bit Grid (R7): `width` columns, `height` rows, and its cells row by row, each row from column 0 up. -/
structure Grid where
  width : Nat
  height : Nat
  rows : List (List Bit)
deriving DecidableEq, Repr

/-- The randomness stream `rng` (R33): "a sequence of Bits, finite or infinite". An endless stream is known by a number
only; its bits are the free values `Config.endlessBit` (LOG 4). -/
inductive BitSource where
  | finite (bits : List Bit)
  | endless (number : Nat)
deriving DecidableEq, Repr

/-- The bytes of `BUF` that something has written, by rising address. What is not listed has not been written. -/
abbrev Memory := List Host.Cell

/-- The whole state (R20, R9). A slot is `some` grid exactly when its bit `V` is 1; an invalid slot has no width, height
or cells (R22, 93 U1). `cfg`, `prog` and `rng` are the arguments of the step relation (R9), which no command changes
(LOG 3). -/
structure State where
  cfg : Config
  prog : List Word
  rng : BitSource
  rngPos : Nat
  buf : Memory
  slot0 : Option Grid
  slot1 : Option Grid
  slot2 : Option Grid
  slot3 : Option Grid
  pc : BitVec 32
  res : Bit
  srcBase : Addr
  dstBase : Addr
  fault : BitVec 4
  fpc : BitVec 32
deriving DecidableEq, Repr

/-- The machine right after reset (R200), with the default parameters (R4). What reset does not touch has the values
of LOG 2, LOG 4 and LOG 5: `BUF` lists nothing, `rng` is an endless source at position 0, `prog` is empty. -/
def State.reset : State where
  cfg := Config.standard
  prog := []
  rng := .endless 0
  rngPos := 0
  buf := []
  slot0 := none
  slot1 := none
  slot2 := none
  slot3 := none
  pc := 0
  res := false
  srcBase := 0
  dstBase := 0
  fault := 0
  fpc := 0

end Sys2Proof.Machine
end

