-- ==== Sys2Proof/Machine/Flags.lean ====
section
/-!
DEFINITION. The flag-like state of R27: the block has no condition codes; it has the four valid bits `G[g].V` and the
halted condition `FAULT ≠ 0`.
-/

namespace Sys2Proof.Machine

/-- The grid in slot `g`, if it holds one (R22). -/
def State.slot (s : State) : Slot → Option Grid
  | .g0 => s.slot0
  | .g1 => s.slot1
  | .g2 => s.slot2
  | .g3 => s.slot3

/-- The valid bit `G[g].V` (R22, R27). -/
def State.valid (s : State) (g : Slot) : Bit := (s.slot g).isSome

/-- The core is halted: `FAULT ≠ 0` (R27, R172). -/
def State.halted (s : State) : Bool := decide (s.fault ≠ 0)

/-- The run is final: `FAULT = 0` and `pc = len(prog)` (R26, R203). -/
def State.final (s : State) : Bool := decide (s.fault = 0 ∧ s.pc.toNat = s.prog.length)

/-- A run is in progress: a command of `prog` has completed, the core is not halted and commands remain. Before the
first command and after the end the host may act (R10, R11; LOG 7). -/
def State.inProgress (s : State) : Bool :=
  decide (s.fault = 0 ∧ s.pc ≠ 0 ∧ s.pc.toNat < s.prog.length)

end Sys2Proof.Machine
end

