-- ==== Sys2Proof/Machine/Operands.lean ====
section
/-!
DEFINITION. The operand forms: a slot as a source or a destination (R23), the scalar registers a command writes
(R28, R29), and the one addressing mode, an implicit base register plus a computed offset (R144, R147), in unbounded
naturals.
-/

namespace Sys2Proof.Machine

/-- Replace slot `g` as a whole: `some` grid makes it valid, `none` clears its valid bit (R8, R23, R112). -/
def State.setSlot (s : State) (g : Slot) (x : Option Grid) : State :=
  match g with
  | .g0 => { s with slot0 := x }
  | .g1 => { s with slot1 := x }
  | .g2 => { s with slot2 := x }
  | .g3 => { s with slot3 := x }

/-- Write `RES` (R28). -/
def State.setRes (s : State) (b : Bit) : State := { s with res := b }

/-- Write `SRCBASE` (R29). -/
def State.setSrcBase (s : State) (a : Addr) : State := { s with srcBase := a }

/-- Write `DSTBASE` (R29). -/
def State.setDstBase (s : State) (a : Addr) : State := { s with dstBase := a }

/-- Replace the content of `BUF`. -/
def State.setBuf (s : State) (m : Memory) : State := { s with buf := m }

/-- Move the position in `rng` (R34). -/
def State.setRngPos (s : State) (n : Nat) : State := { s with rngPos := n }

/-- The address of pixel (x = col, y = row) of the pixel buffer (R144). -/
def pixelAddr (s : State) (width row col : Nat) : Nat := s.srcBase.toNat + (row * width + col)

/-- The address of channel `ch` of pixel (x = col, y = row) of the RGB buffer (R144). -/
def rgbAddr (s : State) (width row col ch : Nat) : Nat := s.dstBase.toNat + (3 * (row * width + col) + ch)

end Sys2Proof.Machine
end

