-- ==== Sys2Proof/Machine/Ops.lean ====
section
/-!
DEFINITION. The shared operations: the ends of a command (completing, R26; taking a fault, R171 and R172), the buffer
memory (R50, R51) and the randomness stream (R33). There is no return from a fault (R184): the way out is reset,
`State.resetEvent` in Machine/HostPort.lean.
-/

namespace Sys2Proof.Machine

/-- What a command answers. -/
abbrev Answer := Host.Outcome State Fault Refusal

/-- The code of a cause (R171). -/
def causeCode : Cause → BitVec 4
  | .illegalCommand => 1
  | .dimRange => 2
  | .oddDimension => 3
  | .slotInvalid => 4
  | .dimMismatch => 5
  | .tileRange => 6
  | .addrRange => 7
  | .rngExhausted => 8

/-- Fault entry (R172): `FAULT <- code`, `FPC <- pc`, `pc` and everything else unchanged. -/
def State.enterFault (s : State) (c : Cause) : State := { s with fault := causeCode c, fpc := s.pc }

/-- `pc <- pc + 1` (R26). -/
def State.advance (s : State) : State := { s with pc := s.pc + 1 }

/-- A command ends with a fault (R172): the machine goes to the halted state. -/
def raise (c : Cause) (s : State) : Answer := .next (s.enterFault c)

/-- A command completes (R26). -/
def complete (s : State) : Answer := .next s.advance

/-- The byte written at address `a`, if any. -/
def bufLookup : Memory → Nat → Option Byte
  | [], _ => none
  | (b, v) :: m, a => if a = b then some v else bufLookup m a

/-- What an unlisted address of `BUF` reads as (LOG 1): the free byte of that address. -/
def bufUnlisted (a : Nat) : Byte := Config.bufByte a

/-- What memory `m` reads as at address `a`. -/
def bufRead (m : Memory) (a : Nat) : Byte := (bufLookup m a).getD (bufUnlisted a)

/-- `MemRead(a, 1)` (R51). Every address below `BUF_BYTES` is plain memory (R50). -/
def memRead (s : State) (a : Nat) : Byte := bufRead s.buf a

/-- The cells that hold `bytes` at ascending addresses from `base`. -/
def cellsFrom : Nat → List Byte → Memory
  | _, [] => []
  | base, v :: vs => (base, v) :: cellsFrom (base + 1) vs

/-- Write `bytes` at the ascending addresses from `base`, each address once (R55), all of them in one piece: the cells
below stay, then come the new ones, then the cells above. -/
def bufWrite (m : Memory) (base : Nat) (bytes : List Byte) : Memory :=
  m.filter (fun c => decide (c.1 < base)) ++ cellsFrom base bytes ++
    m.filter (fun c => decide (base + bytes.length ≤ c.1))

/-- `MemWrite(a, 1, v)` (R51). -/
def memWrite (s : State) (a : Nat) (v : Byte) : State := s.setBuf (bufWrite s.buf a [v])

/-- The canonical form of `BUF`: addresses strictly rising, so each written byte is listed once. An entry stands for a
written byte, and an unlisted address for none (`bufLookup` is `none` there), so no entry equals what an unlisted
address has (LOG 2). -/
abbrev Memory.wf (m : Memory) : Prop := m.Pairwise (fun c d => c.1 < d.1)

/-- `remaining(rng)` (R8): how many bits the stream can still deliver from a position; `none` is infinity. -/
def remaining : BitSource → Nat → Option Nat
  | .finite bits, pos => some (bits.length - pos)
  | .endless _, _ => none

/-- The stream cannot deliver `n` more bits (R112). -/
def rngShort (src : BitSource) (pos n : Nat) : Bool :=
  match remaining src pos with
  | some k => decide (k < n)
  | none => false

/-- The bit at position `k` of the stream. A finite stream is never read past its end: R112 is tested first. -/
def bitAt : BitSource → Nat → Bit
  | .finite bits, k => bits.getD k false
  | .endless number, k => Config.endlessBit number k

/-- The position at the end of the stream (R112, 93 U12); an endless stream has none and keeps its position. -/
def rngEnd : BitSource → Nat → Nat
  | .finite bits, _ => bits.length
  | .endless _, pos => pos

/-- `draw_bit()` (R33): the first bit not yet taken, and the position moved on by one; `none` when no bit is left. -/
def drawBit (src : BitSource) (pos : Nat) : Option (Bit × Nat) :=
  if rngShort src pos 1 then none else some (bitAt src pos, pos + 1)

end Sys2Proof.Machine
end

