-- ==== Sys2Proof/Machine/Grids.lean ====
section
/-!
DEFINITION. Operations on grid values: cells (R7), making a grid whose every cell is given (R8), the primitives
`inverse` (R100) and `set_tile` (R101), and a grid made of diagonal-complementary tiles.
-/

namespace Sys2Proof.Machine

/-- `inverse(b)` (R100): the complementary bit. -/
def inverse (b : Bit) : Bit := !b

/-- `a XOR b` (R6): 0 when `a = b` and 1 otherwise. -/
def bitXor (a b : Bit) : Bit := if a = b then false else true

/-- The cell in row `r`, column `c` (R7); `none` outside the grid, where there is no cell. -/
def Grid.cell? (x : Grid) (r c : Nat) : Option Bit := (x.rows[r]?).bind (fun row => row[c]?)

/-- The cell in row `r`, column `c` of a grid that has it. No rule reads a cell outside a grid (R7). -/
def Grid.cell (x : Grid) (r c : Nat) : Bit := (x.cell? r c).getD false

/-- A grid value is what its size says: `height` rows of `width` cells each (R22: every cell has a value). -/
abbrev Grid.wf (x : Grid) : Prop := x.rows.length = x.height ∧ ∀ row ∈ x.rows, row.length = x.width

/-- The grid of `h` rows and `w` columns whose cell in row `r`, column `c` is `f r c` (R8: a command that makes a grid
writes every cell of it; R63: in any order). -/
def gridOf (h w : Nat) (f : Nat → Nat → Bit) : Grid where
  width := w
  height := h
  rows := (List.range h).map (fun r => (List.range w).map (fun c => f r c))

/-- Write one cell; nothing outside the grid. -/
def Grid.setCell (x : Grid) (r c : Nat) (v : Bit) : Grid :=
  { x with rows := x.rows.modify r (fun row => row.set c v) }

/-- `set_tile` (R101): the 2×2 block `[[leading, following], [following, leading]]` at (row, col). -/
def setTile (x : Grid) (row col : Nat) (leading following : Bit) : Grid :=
  (((x.setCell row col leading).setCell row (col + 1) following).setCell (row + 1) col following).setCell
    (row + 1) (col + 1) leading

/-- The precondition of `set_tile` (R101): even position, room for a 2×2 block. -/
abbrev TileFits (x : Grid) (row col : Nat) : Prop :=
  row % 2 = 0 ∧ col % 2 = 0 ∧ row + 1 < x.height ∧ col + 1 < x.width

/-- The cell `[a][b]` of the tile that `set_tile` writes (R101): leading on the diagonal, following off it. -/
def tileCell (leading following : Bit) (a b : Nat) : Bit := if a = b then leading else following

/-- The grid of `h` rows and `w` columns, both even, whose tile at (2i, 2j) is `set_tile` with leading bit `lead i j` and
`following = inverse(leading)` (R110, R120): every cell lies in exactly one tile. -/
def tiledGrid (h w : Nat) (lead : Nat → Nat → Bit) : Grid :=
  gridOf h w (fun r c => tileCell (lead (r / 2) (c / 2)) (inverse (lead (r / 2) (c / 2))) (r % 2) (c % 2))

end Sys2Proof.Machine
end

