-- ==== Sys2Proof/Machine/Adapter.lean ====
section
/-!
DEFINITION. The Bitmap Adapter: SETSRC (R140), SETDST (R141), TOBG (R142) and FRBG (R143), with the buffer layouts of
R144.
-/

namespace Sys2Proof.Machine

/-- `SETSRC addr` (R140). -/
def execSetsrc (addr : Addr) (s : State) : Answer := complete (s.setSrcBase addr)

/-- `SETDST addr` (R141). -/
def execSetdst (addr : Addr) (s : State) : Answer := complete (s.setDstBase addr)

/-- The value mapping of R142: "maps intensity 255→1, all other values (0–254) →0". -/
def bitOfIntensity (v : Byte) : Bit := decide (v = 255)

/-- The value mapping of R143: bit 1 → 255, bit 0 → 0. -/
def intensityOfBit (b : Bit) : Byte := if b then 255 else 0

/-- The grid TOBG makes of the pixel buffer at `SRCBASE` (R142). -/
def bufferGrid (s : State) (width height : Nat) : Grid :=
  gridOf height width (fun row col => bitOfIntensity (memRead s (pixelAddr s width row col)))

/-- `TOBG gd, width, height` (R142). -/
def execTobg (gd : Slot) (width height : Nat) (s : State) : Answer :=
  if width > s.cfg.maxW ∨ height > s.cfg.maxH then raise .dimRange s
  else if s.srcBase.toNat + width * height > s.cfg.bufBytes then raise .addrRange s
  else complete (s.setSlot gd (some (bufferGrid s width height)))

/-- The bytes of the RGB buffer of a grid in ascending address order (R144): row by row, pixel by pixel, the three
channels of a pixel one after another. -/
def rgbBytes (x : Grid) : List Byte :=
  (List.range x.height).flatMap fun row =>
    (List.range x.width).flatMap fun col =>
      (List.range 3).map fun _ => intensityOfBit (x.cell row col)

/-- `FRBG gs` (R143); the range is tested before the first write. -/
def execFrbg (gs : Slot) (s : State) : Answer :=
  match s.slot gs with
  | none => raise .slotInvalid s
  | some x =>
    if s.dstBase.toNat + 3 * x.width * x.height > s.cfg.bufBytes then raise .addrRange s
    else complete (s.setBuf (bufWrite s.buf s.dstBase.toNat (rgbBytes x)))

end Sys2Proof.Machine
end

