-- ==== Sys2Proof/Machine/Alloc.lean ====
section
/-!
DEFINITION. Grid allocation: GNEW (R160).
-/

namespace Sys2Proof.Machine

/-- The grid of `DEFAULT_BIT` cells GNEW makes (R160). -/
def blankGrid (width height : Nat) : Grid := gridOf height width (fun _ _ => Config.defaultBit)

/-- `GNEW gd, width, height` (R160). -/
def execGnew (gd : Slot) (width height : Nat) (s : State) : Answer :=
  if width > s.cfg.maxW ∨ height > s.cfg.maxH then raise .dimRange s
  else complete (s.setSlot gd (some (blankGrid width height)))

end Sys2Proof.Machine
end

