-- ==== Sys2Proof/Machine/Codec.lean ====
section
/-!
DEFINITION. The Bit-Tile Codec: INV (R102) and SETTILE (R103).
-/

namespace Sys2Proof.Machine

/-- `INV b` (R102): `RES <- inverse(b)`. -/
def execInv (b : Bit) (s : State) : Answer := complete (s.setRes (inverse b))

/-- `SETTILE g, row, col, lead, foll` (R103), in place on a valid slot. -/
def execSettile (g : Slot) (row col : Nat) (lead foll : Bit) (s : State) : Answer :=
  match s.slot g with
  | none => raise .slotInvalid s
  | some x =>
    if TileFits x row col then complete (s.setSlot g (some (setTile x row col lead foll)))
    else raise .tileRange s

end Sys2Proof.Machine
end

