-- ==== Sys2Proof/Machine/Encoder.lean ====
section
/-!
DEFINITION. The Encoder: ENCODE (R120).
-/

namespace Sys2Proof.Machine

/-- The leading bit of the cipher tile for source pixel (i, j) (R120): "if `s == r`: `leading = default (0)`; else:
`leading = inverse(default) = 1`". -/
def cipherLead (src share : Grid) (i j : Nat) : Bit :=
  if src.cell i j = share.cell (2 * i) (2 * j) then Config.defaultBit else inverse Config.defaultBit

/-- The cipher grid of R120: the size of the share, a tile at (2i, 2j) for every source pixel (i, j). -/
def cipherGrid (src share : Grid) : Grid := tiledGrid share.height share.width (cipherLead src share)

/-- `ENCODE gd, gs, gr` (R120); the sources are the grids before the command (R23). -/
def execEncode (gd gs gr : Slot) (s : State) : Answer :=
  match s.slot gs, s.slot gr with
  | some src, some share =>
    if share.width ≠ 2 * src.width ∨ share.height ≠ 2 * src.height then raise .dimMismatch s
    else complete (s.setSlot gd (some (cipherGrid src share)))
  | _, _ => raise .slotInvalid s

end Sys2Proof.Machine
end

