-- ==== Sys2Proof/Machine/Recoverer.lean ====
section
/-!
DEFINITION. The Recoverer: RECOVER (R130).
-/

namespace Sys2Proof.Machine

/-- The cell-by-cell exclusive or of two grids of equal size (R130). -/
def xorGrid (a b : Grid) : Grid := gridOf a.height a.width (fun r c => bitXor (a.cell r c) (b.cell r c))

/-- `RECOVER gd, ga, gb` (R130); the sources are the grids before the command (R23). -/
def execRecover (gd ga gb : Slot) (s : State) : Answer :=
  match s.slot ga, s.slot gb with
  | some a, some b =>
    if a.width ≠ b.width ∨ a.height ≠ b.height then raise .dimMismatch s
    else complete (s.setSlot gd (some (xorGrid a b)))
  | _, _ => raise .slotInvalid s

end Sys2Proof.Machine
end

