-- ==== Sys2Proof/Machine/Share.lean ====
section
/-!
DEFINITION. The Share Generator: RANDSHARE (R110 to R112).
-/

namespace Sys2Proof.Machine

/-- `T` of R110: the number of tiles, and of draws. -/
def tileCount (width height : Nat) : Nat := width / 2 * (height / 2)

/-- The share grid of R110 whose draws are the bits of `src` from `pos` on: the tile at (2i, 2j) leads with draw number
`i × (width/2) + j` (R111: row-major order). -/
def shareGrid (src : BitSource) (pos width height : Nat) : Grid :=
  tiledGrid height width (fun i j => bitAt src (pos + (i * (width / 2) + j)))

/-- `RANDSHARE gd, width, height` (R110); on exhaustion (R112) the rest of the stream counts as consumed and slot `gd`
becomes invalid before the fault is taken. -/
def execRandshare (gd : Slot) (width height : Nat) (s : State) : Answer :=
  if width > s.cfg.maxW ∨ height > s.cfg.maxH then raise .dimRange s
  else if width % 2 = 1 ∨ height % 2 = 1 then raise .oddDimension s
  else if rngShort s.rng s.rngPos (tileCount width height) then
    raise .rngExhausted ((s.setRngPos (rngEnd s.rng s.rngPos)).setSlot gd none)
  else
    complete ((s.setRngPos (s.rngPos + tileCount width height)).setSlot gd
      (some (shareGrid s.rng s.rngPos width height)))

end Sys2Proof.Machine
end

