-- ==== Sys2Proof/Machine/Dispatch.lean ====
section
/-!
DEFINITION. What each command does: one arm per constructor of `Instr`.
-/

namespace Sys2Proof.Machine

def exec (i : Instr) (s : State) : Host.Outcome State Fault Refusal :=
  match i with
  | .inv b => Sys2Proof.Machine.execInv b s
  | .settile g row col lead foll => Sys2Proof.Machine.execSettile g row col lead foll s
  | .randshare gd width height => Sys2Proof.Machine.execRandshare gd width height s
  | .encode gd gs gr => Sys2Proof.Machine.execEncode gd gs gr s
  | .recover gd ga gb => Sys2Proof.Machine.execRecover gd ga gb s
  | .tobg gd width height => Sys2Proof.Machine.execTobg gd width height s
  | .frbg gs => Sys2Proof.Machine.execFrbg gs s
  | .setsrc addr => Sys2Proof.Machine.execSetsrc addr s
  | .setdst addr => Sys2Proof.Machine.execSetdst addr s
  | .gnew gd width height => Sys2Proof.Machine.execGnew gd width height s

end Sys2Proof.Machine
end

