-- ==== Sys2Proof/WellFormed.lean ====
section
/-!
DEFINITION. Which commands have an encoding: R86, "the assembler refuses an operand that does not fit its field (…
an integer above 1023 for `row`, `col`, `width`, `height` …)". The other operands fit by their type.
-/

namespace Sys2Proof

/-- The ten-bit fields of R80 hold 0 to 1023. -/
def fitsTen (n : Nat) : Bool := decide (n < 1024)

/-- Every operand fits its field (R80, R86). -/
def Instr.wellFormed : Instr → Bool
  | .inv _ => true
  | .settile _ row col _ _ => fitsTen row && fitsTen col
  | .randshare _ width height => fitsTen width && fitsTen height
  | .encode _ _ _ => true
  | .recover _ _ _ => true
  | .tobg _ width height => fitsTen width && fitsTen height
  | .frbg _ => true
  | .setsrc _ => true
  | .setdst _ => true
  | .gnew _ width height => fitsTen width && fitsTen height

end Sys2Proof
end

