-- ==== Sys2Proof/Decode.lean ====
section
/-!
DEFINITION. The decoder and the encoder (30_encoding.md). Both work on the number a word stands for: R5, "`w[hi:lo]` is
the unsigned integer made of bits `hi` down to `lo`". Decoding is total: every word is one of the ten commands or is
rejected by a name that says why (R82). A command word has no byte order (R53).
-/

namespace Sys2Proof

/-- `w[lo+len-1 : lo]` (R5): the field of `len` bits whose lowest is bit `lo`. -/
def field (w : Word) (lo len : Nat) : Nat := w.toNat / 2 ^ lo % 2 ^ len

/-- The slot a two-bit field names (R80). -/
def slotOfNat : Nat → Slot
  | 0 => .g0
  | 1 => .g1
  | 2 => .g2
  | _ => .g3

/-- The number of a slot (R80). -/
def slotNum : Slot → Nat
  | .g0 => 0
  | .g1 => 1
  | .g2 => 2
  | .g3 => 3

/-- The Bit a one-bit field holds. -/
def bitOfNat (n : Nat) : Bit := decide (n = 1)

/-- A Bit as the integer of its field. -/
def bitNum (b : Bit) : Nat := if b then 1 else 0

/-- Why a word is no command (R82): (a) its opcode is 0 or 10 to 15, or (b) a must-be-zero bit of the format that the
opcode selects is 1. -/
inductive IllegalWord where
  | reservedOpcode (op : Nat)
  | reservedBits (op : Nat)
deriving DecidableEq, Repr

/-- What decoding a word gives: a command, or a rejection by name. -/
inductive Decoded where
  | command (i : Instr)
  | illegal (why : IllegalWord)
deriving DecidableEq, Repr

/-- The slot field in bits `lo+1 : lo`. -/
def slotField (w : Word) (lo : Nat) : Slot := slotOfNat (field w lo 2)

/-- The Bit in bit `lo`. -/
def bitField (w : Word) (lo : Nat) : Bit := bitOfNat (field w lo 1)

/-- Decoding (R72, R71, R80, R82). No range check on operands is part of it (R83). -/
def decode (w : Word) : Decoded :=
  match field w 28 4 with
  | 1 => if field w 1 27 = 0 then .command (.inv (bitField w 0)) else .illegal (.reservedBits 1)
  | 2 =>
    if field w 0 4 = 0 then
      .command (.settile (slotField w 26) (field w 16 10) (field w 6 10) (bitField w 5) (bitField w 4))
    else .illegal (.reservedBits 2)
  | 3 =>
    if field w 0 6 = 0 then .command (.randshare (slotField w 26) (field w 16 10) (field w 6 10))
    else .illegal (.reservedBits 3)
  | 4 =>
    if field w 0 22 = 0 then .command (.encode (slotField w 26) (slotField w 24) (slotField w 22))
    else .illegal (.reservedBits 4)
  | 5 =>
    if field w 0 22 = 0 then .command (.recover (slotField w 26) (slotField w 24) (slotField w 22))
    else .illegal (.reservedBits 5)
  | 6 =>
    if field w 0 6 = 0 then .command (.tobg (slotField w 26) (field w 16 10) (field w 6 10))
    else .illegal (.reservedBits 6)
  | 7 => if field w 0 26 = 0 then .command (.frbg (slotField w 26)) else .illegal (.reservedBits 7)
  | 8 =>
    if field w 24 3 = 0 then
      if field w 27 1 = 0 then .command (.setsrc (BitVec.ofNat 24 (field w 0 24)))
      else .command (.setdst (BitVec.ofNat 24 (field w 0 24)))
    else .illegal (.reservedBits 8)
  | 9 =>
    if field w 0 6 = 0 then .command (.gnew (slotField w 26) (field w 16 10) (field w 6 10))
    else .illegal (.reservedBits 9)
  | op => .illegal (.reservedOpcode op)

/-- The opcode of a command (R72), bits 31:28 of its word. -/
def opcode : Instr → Nat
  | .inv _ => 1
  | .settile _ _ _ _ _ => 2
  | .randshare _ _ _ => 3
  | .encode _ _ _ => 4
  | .recover _ _ _ => 5
  | .tobg _ _ _ => 6
  | .frbg _ => 7
  | .setsrc _ => 8
  | .setdst _ => 8
  | .gnew _ _ _ => 9

/-- The operand fields of a command, each at its place of R71 and every must-be-zero bit 0. -/
def operandBits : Instr → Nat
  | .inv b => bitNum b
  | .settile g row col lead foll =>
    slotNum g * 2 ^ 26 + row * 2 ^ 16 + col * 2 ^ 6 + bitNum lead * 2 ^ 5 + bitNum foll * 2 ^ 4
  | .randshare gd width height => slotNum gd * 2 ^ 26 + width * 2 ^ 16 + height * 2 ^ 6
  | .encode gd gs gr => slotNum gd * 2 ^ 26 + slotNum gs * 2 ^ 24 + slotNum gr * 2 ^ 22
  | .recover gd ga gb => slotNum gd * 2 ^ 26 + slotNum ga * 2 ^ 24 + slotNum gb * 2 ^ 22
  | .tobg gd width height => slotNum gd * 2 ^ 26 + width * 2 ^ 16 + height * 2 ^ 6
  | .frbg gs => slotNum gs * 2 ^ 26
  | .setsrc addr => addr.toNat
  | .setdst addr => 2 ^ 27 + addr.toNat
  | .gnew gd width height => slotNum gd * 2 ^ 26 + width * 2 ^ 16 + height * 2 ^ 6

/-- The number of a command's word, as R89 writes its worked encodings. -/
def encodeNum (i : Instr) : Nat := opcode i * 2 ^ 28 + operandBits i

/-- The word of a well-formed command. -/
def encode (i : Instr) : Word := BitVec.ofNat 32 (encodeNum i)

/-- A row of the opcode map of R72. -/
structure OpcodeRow where
  mnemonic : String
  pattern : Word
  mask : Word
deriving DecidableEq, Repr

/-- The row of R72 a command belongs to, with its match and mask. -/
def opcodeRow : Instr → OpcodeRow
  | .inv _ => ⟨"INV", 0x10000000, 0xFFFFFFFE⟩
  | .settile _ _ _ _ _ => ⟨"SETTILE", 0x20000000, 0xF000000F⟩
  | .randshare _ _ _ => ⟨"RANDSHARE", 0x30000000, 0xF000003F⟩
  | .encode _ _ _ => ⟨"ENCODE", 0x40000000, 0xF03FFFFF⟩
  | .recover _ _ _ => ⟨"RECOVER", 0x50000000, 0xF03FFFFF⟩
  | .tobg _ _ _ => ⟨"TOBG", 0x60000000, 0xF000003F⟩
  | .frbg _ => ⟨"FRBG", 0x70000000, 0xF3FFFFFF⟩
  | .setsrc _ => ⟨"SETSRC", 0x80000000, 0xFF000000⟩
  | .setdst _ => ⟨"SETDST", 0x88000000, 0xFF000000⟩
  | .gnew _ _ _ => ⟨"GNEW", 0x90000000, 0xF000003F⟩

/-- The ten rows of R72. -/
def opcodeTable : List OpcodeRow :=
  [opcodeRow (.inv false), opcodeRow (.settile .g0 0 0 false false), opcodeRow (.randshare .g0 0 0),
    opcodeRow (.encode .g0 .g0 .g0), opcodeRow (.recover .g0 .g0 .g0), opcodeRow (.tobg .g0 0 0),
    opcodeRow (.frbg .g0), opcodeRow (.setsrc 0), opcodeRow (.setdst 0), opcodeRow (.gnew .g0 0 0)]

/-- The word matches the row: `w AND mask = match` (R72). -/
abbrev OpcodeRow.Matches (r : OpcodeRow) (w : Word) : Prop := w &&& r.mask = r.pattern

/-- The command word the host's table numbering gives: its `nbits` low bits, the bits above them 0. -/
def tableWord (nbits w : Nat) : Word := BitVec.ofNat 32 (w % 2 ^ nbits)

/-- The command the decoder reads from a word given in the opcode table's numbering of bits. -/
def decodeTableWord (nbits w : Nat) : Option Instr :=
  match decode (tableWord nbits w) with
  | .command i => some i
  | .illegal _ => none

end Sys2Proof
end

