-- ==== Sys2Proof/Machine/Fetch.lean ====
section
/-!
DEFINITION. Fetching the next command of `prog` (R25, R26) and what an illegal word does (R173).
-/

namespace Sys2Proof.Machine

/-- What the fetch finds. -/
inductive Fetched where
  | command (w : Word)
  | stopped (f : Fault)
  | notAdmitted (r : Refusal)
deriving DecidableEq, Repr

/-- The fetch of R26: a halted core has no step, a run that has ended has no step, otherwise the word is `prog[pc]`. A
`prog` that R25 does not admit is refused (93 U17), so `pc` never wraps. -/
def fetch (s : State) : Fetched :=
  if s.fault ≠ 0 then .stopped .halted
  else if 4294967296 ≤ s.prog.length then .notAdmitted .progNotAdmitted
  else
    match s.prog[s.pc.toNat]? with
    | some w => .command w
    | none => if s.pc.toNat = s.prog.length then .stopped .runEnded else .stopped .pcPastEnd

/-- Executing a word that matches no row raises `IllegalCommand` and changes nothing else (R82, R173). -/
def execIllegal (s : State) : Answer := raise .illegalCommand s

/-- `prog` with the word `w` at index `n`; a shorter `prog` is first filled up with all-zero (illegal) words. -/
def placeWord (prog : List Word) (n : Nat) (w : Word) : List Word :=
  prog.take n ++ List.replicate (n - prog.length) 0 ++ w :: prog.drop (n + 1)

end Sys2Proof.Machine
end

