-- ==== Sys2Proof/Machine/Step.lean ====
section
/-!
DEFINITION. One step of the block (R26): fetch, decode, execute.
-/

namespace Sys2Proof.Machine

/-- The step of R26. -/
def step (s : State) : Host.Outcome State Fault Refusal :=
  match fetch s with
  | .stopped f => .fault f
  | .notAdmitted r => .refused r
  | .command w =>
    match decode w with
    | .illegal _ => execIllegal s
    | .command i => exec i s

/-- `s` with the given command word at `prog[pc]` and `FAULT` clear, which is all the fetch of R26 needs (LOG 5). -/
def State.withFetchWord (s : State) (nbits w : Nat) : State :=
  { s with prog := placeWord s.prog s.pc.toNat (tableWord nbits w), fault := 0 }

end Sys2Proof.Machine
end

