-- ==== Sys2Proof/Machine/Loops.lean ====
section
/-!
DEFINITION. The loops of R110, R120 and R143 written as their pseudocode writes them, one tile or one byte at a time.
The meanings give the results cell by cell (R63); the statements of Certificates/Slice0 say that the two agree.
-/

namespace Sys2Proof.Machine

/-- The tile positions of R110's two nested loops, in their order. -/
def tilePositions (width height : Nat) : List (Nat × Nat) :=
  (List.range (height / 2)).flatMap fun i => (List.range (width / 2)).map fun j => (2 * i, 2 * j)

/-- The loop of R110 over the given tile positions: draw a bit, set the tile. `none` when a draw fails. -/
def shareLoop (src : BitSource) : List (Nat × Nat) → Grid → Nat → Option (Grid × Nat)
  | [], x, pos => some (x, pos)
  | (row, col) :: ps, x, pos =>
    match drawBit src pos with
    | none => none
    | some (leading, next) => shareLoop src ps (setTile x row col leading (inverse leading)) next

/-- The loop of R120 over the given source pixels. -/
def cipherLoop (src share : Grid) : List (Nat × Nat) → Grid → Grid
  | [], c => c
  | (i, j) :: ps, c =>
    cipherLoop src share ps
      (setTile c (2 * i) (2 * j) (cipherLead src share i j) (inverse (cipherLead src share i j)))

/-- The loop of R143 over the given (row, col, ch): one `MemWrite` each. -/
def rgbLoop (x : Grid) : List (Nat × Nat × Nat) → State → State
  | [], s => s
  | (row, col, ch) :: ps, s =>
    rgbLoop x ps (memWrite s (rgbAddr s x.width row col ch) (intensityOfBit (x.cell row col)))

end Sys2Proof.Machine
end

