-- ==== Sys2Proof/Machine/HostPort.lean ====
section
/-!
DEFINITION. What the host may do (R11, R200 to R203, R207): reset, and before or after a run write `BUF`, supply `prog`,
connect a randomness source, read `BUF` and the status registers. These are moves of the environment; the block's own
step never makes them.
-/

namespace Sys2Proof.Machine

/-- The reset event (R200, R201): every register of the block at its reset value and all four slots invalid; `BUF`, the
position in `rng`, `prog` and the parameters are not touched. -/
def State.resetEvent (s : State) : State :=
  { s with
    slot0 := none
    slot1 := none
    slot2 := none
    slot3 := none
    pc := 0
    res := false
    srcBase := 0
    dstBase := 0
    fault := 0
    fpc := 0 }

/-- The host's moves (R11). -/
inductive HostMove where
  | reset
  | writeBuf (a : Nat) (v : Byte)
  | supplyProg (p : List Word)
  | connectRng (src : BitSource)
deriving DecidableEq, Repr

/-- What a move does. Reset is always possible (R200). The others are refused while a run is in progress (R207, 93 U9).
`prog` is chosen before the first command (R14, R203: a longer list is a different run), with fewer than 2^32 words
(R25); a source is connected at its position 0. -/
def hostMove (m : HostMove) (s : State) : Answer :=
  match m with
  | .reset => .next s.resetEvent
  | .writeBuf a v =>
    if s.inProgress then .refused .hostDuringRun
    else if a < s.cfg.bufBytes then .next (memWrite s a v)
    else .refused .noSuchByte
  | .supplyProg p =>
    if s.pc ≠ 0 ∨ s.fault ≠ 0 then .refused .hostDuringRun
    else if 4294967296 ≤ p.length then .refused .progNotAdmitted
    else .next { s with prog := p }
  | .connectRng src =>
    if s.inProgress then .refused .hostDuringRun
    else .next { s with rng := src, rngPos := 0 }

/-- The registers the host reads after a run (R11). -/
structure StatusView where
  pc : BitVec 32
  res : Bit
  srcBase : Addr
  dstBase : Addr
  fault : BitVec 4
  fpc : BitVec 32
deriving DecidableEq, Repr

/-- The status interface outside a run (R11, R28 to R31): no grid cell is readable through it. -/
def hostStatus (s : State) : Option StatusView :=
  if s.inProgress then none else some ⟨s.pc, s.res, s.srcBase, s.dstBase, s.fault, s.fpc⟩

/-- What the host reads at an address of `BUF` outside a run (R11); no byte during a run or past the end of `BUF`. -/
def hostReadBuf (s : State) (a : Nat) : Option Byte :=
  if s.inProgress then none
  else if a < s.cfg.bufBytes then some (memRead s a)
  else none

end Sys2Proof.Machine
end

