-- ==== Sys2Proof/Safety.lean ====
section
/-!
DEFINITION. What counts as a safe state and a safe run, in the words the statements use: the data-model invariants of
R22, R25, R30 and the bounds of R4, and when a fault condition of R171 holds.
-/

namespace Sys2Proof.Machine

/-- A slot's content is a grid within capacity whose every cell has a value (R22); an invalid slot is fine. -/
abbrev SlotOk (cfg : Config) (x : Option Grid) : Prop :=
  ∀ g ∈ x, g.wf ∧ g.width ≤ cfg.maxW ∧ g.height ≤ cfg.maxH

/-- The position in `rng` is not past the end of the stream (R33). -/
def RngOk (src : BitSource) (pos : Nat) : Bool :=
  match src with
  | .finite bits => decide (pos ≤ bits.length)
  | .endless _ => true

/-- The invariant of the machine: admitted parameters (R4) and `prog` (R25), legal slots (R22), `BUF` in canonical
form and inside its bounds (R50), the stream position inside the stream (R33), `pc` no further than the end of `prog`
(R26), `FAULT` one of 0 to 8 (R30), and `FPC` 0 before a fault and `pc` after one (R31, R172). -/
structure Inv (s : State) : Prop where
  cfg : s.cfg.Admitted
  prog : s.prog.length < 4294967296
  slots : ∀ g, SlotOk s.cfg (s.slot g)
  bufForm : Memory.wf s.buf
  bufBound : ∀ c ∈ s.buf, c.1 < s.cfg.bufBytes
  rng : RngOk s.rng s.rngPos = true
  pc : s.pc.toNat ≤ s.prog.length
  fault : s.fault.toNat ≤ 8
  fpc : s.fpc = if s.fault = 0 then 0 else s.pc

/-- The tile at (r, c) is diagonal-complementary (R7): `{1,0;0,1}` or `{0,1;1,0}`. -/
abbrev DiagonalTile (x : Grid) (r c : Nat) : Prop :=
  x.cell r c = x.cell (r + 1) (c + 1) ∧ x.cell r (c + 1) = x.cell (r + 1) c ∧ x.cell r c ≠ x.cell r (c + 1)

/-- The tile at (r, c) has the value `v` in all four cells (R7: a uniform tile). -/
abbrev UniformTile (x : Grid) (r c : Nat) (v : Bit) : Prop :=
  x.cell r c = v ∧ x.cell r (c + 1) = v ∧ x.cell (r + 1) c = v ∧ x.cell (r + 1) (c + 1) = v

/-- The words R82 calls illegal: (a) the opcode is 0 or 10 to 15, or (b) a bit that the format of the opcode (R71)
marks must-be-zero is 1. -/
abbrev ReservedWord (w : Word) : Prop :=
  let op := (w >>> 28).toNat
  op = 0 ∨ 10 ≤ op ∨
  (op = 1 ∧ w &&& 0x0FFFFFFE ≠ 0) ∨
  (op = 2 ∧ w &&& 0x0000000F ≠ 0) ∨
  ((op = 3 ∨ op = 6 ∨ op = 9) ∧ w &&& 0x0000003F ≠ 0) ∨
  ((op = 4 ∨ op = 5) ∧ w &&& 0x003FFFFF ≠ 0) ∨
  (op = 7 ∧ w &&& 0x03FFFFFF ≠ 0) ∨
  (op = 8 ∧ w &&& 0x07000000 ≠ 0)

/-- The slots a command reads as sources (R23). -/
def sourcesOf : Instr → List Slot
  | .inv _ => []
  | .settile g _ _ _ _ => [g]
  | .randshare _ _ _ => []
  | .encode _ gs gr => [gs, gr]
  | .recover _ ga gb => [ga, gb]
  | .tobg _ _ _ => []
  | .frbg gs => [gs]
  | .setsrc _ => []
  | .setdst _ => []
  | .gnew _ _ _ => []

/-- The slot a command may write (R24). -/
def destinationOf : Instr → Option Slot
  | .inv _ => none
  | .settile g _ _ _ _ => some g
  | .randshare gd _ _ => some gd
  | .encode gd _ _ => some gd
  | .recover gd _ _ => some gd
  | .tobg gd _ _ => some gd
  | .frbg _ => none
  | .setsrc _ => none
  | .setdst _ => none
  | .gnew gd _ _ => some gd

/-- The width and height operands of the commands with capacity checks (R174). -/
def dimsOf : Instr → Option (Nat × Nat)
  | .inv _ => none
  | .settile _ _ _ _ _ => none
  | .randshare _ width height => some (width, height)
  | .encode _ _ _ => none
  | .recover _ _ _ => none
  | .tobg _ width height => some (width, height)
  | .frbg _ => none
  | .setsrc _ => none
  | .setdst _ => none
  | .gnew _ width height => some (width, height)

/-- The condition of a cause, as the table of R171 and the rules R174 to R180 give it, for a command in a state. A
condition that speaks of a source's size or of a position in it holds only of valid sources. -/
def FaultCondition (i : Instr) (s : State) : Cause → Prop
  | .illegalCommand => False
  | .dimRange => ∃ d ∈ dimsOf i, s.cfg.maxW < d.1 ∨ s.cfg.maxH < d.2
  | .oddDimension => ∃ gd w h, i = .randshare gd w h ∧ (w % 2 = 1 ∨ h % 2 = 1)
  | .slotInvalid => ∃ g ∈ sourcesOf i, s.slot g = none
  | .dimMismatch =>
    (∃ gd gs gr S R, i = .encode gd gs gr ∧ s.slot gs = some S ∧ s.slot gr = some R ∧
      (R.width ≠ 2 * S.width ∨ R.height ≠ 2 * S.height)) ∨
    (∃ gd ga gb A B, i = .recover gd ga gb ∧ s.slot ga = some A ∧ s.slot gb = some B ∧
      (A.width ≠ B.width ∨ A.height ≠ B.height))
  | .tileRange =>
    ∃ g row col l f x, i = .settile g row col l f ∧ s.slot g = some x ∧
      (row % 2 = 1 ∨ col % 2 = 1 ∨ x.height ≤ row + 1 ∨ x.width ≤ col + 1)
  | .addrRange =>
    (∃ gd w h, i = .tobg gd w h ∧ s.cfg.bufBytes < s.srcBase.toNat + w * h) ∨
    (∃ gs x, i = .frbg gs ∧ s.slot gs = some x ∧ s.cfg.bufBytes < s.dstBase.toNat + 3 * x.width * x.height)
  | .rngExhausted =>
    ∃ gd w h, i = .randshare gd w h ∧ ∃ k, remaining s.rng s.rngPos = some k ∧ k < w / 2 * (h / 2)

end Sys2Proof.Machine
end

