-- ==== Sys2Proof/Certificates/Slice0/Obligations.lean ====
section
/-!
DEFINITION. What is to be proved of the model: encoding, the step, each command's result and faults, the facts the spec
derives from them, and the invariants. Each docstring says which rule a statement formalises.
-/

open Sys2Proof Sys2Proof.Machine

/-! Encoding (30_encoding.md) -/

/-- R71, R72, R80: decoding the word of any well-formed command gives the command back, every operand included. -/
def Obligations.DecodeOfEncodeIsTheCommand : Prop :=
  ∀ i : Instr, i.wellFormed = true → decode (encode i) = .command i

/-- R70, R71, R80: a word that decodes has no meaning but its command: encoding the command gives the word back. -/
def Obligations.EncodeOfDecodeIsTheWord : Prop :=
  ∀ (w : Word) (i : Instr), decode w = .command i → i.wellFormed = true ∧ encode i = w

/-- R72: a word is the command of a row exactly when `w AND mask = match`, and no word is the command of two rows. -/
def Obligations.DecodeFollowsMaskAndMatch : Prop :=
  ∀ w : Word,
    (∀ i, decode w = .command i → (opcodeRow i).Matches w) ∧
    (∀ r ∈ opcodeTable, r.Matches w → ∃ i, decode w = .command i ∧ opcodeRow i = r) ∧
    (∀ r ∈ opcodeTable, ∀ r' ∈ opcodeTable, r.Matches w → r'.Matches w → r = r')

/-- R89: the ten worked encodings, in both directions. -/
def Obligations.WorkedEncodingsDecode : Prop :=
  (decode 0x10000001 = .command (.inv true) ∧ encode (.inv true) = 0x10000001) ∧
  (decode 0x24020120 = .command (.settile .g1 2 4 true false) ∧
    encode (.settile .g1 2 4 true false) = 0x24020120) ∧
  (decode 0x34040100 = .command (.randshare .g1 4 4) ∧ encode (.randshare .g1 4 4) = 0x34040100) ∧
  (decode 0x48400000 = .command (.encode .g2 .g0 .g1) ∧ encode (.encode .g2 .g0 .g1) = 0x48400000) ∧
  (decode 0x5E400000 = .command (.recover .g3 .g2 .g1) ∧ encode (.recover .g3 .g2 .g1) = 0x5E400000) ∧
  (decode 0x61F47D00 = .command (.tobg .g0 500 500) ∧ encode (.tobg .g0 500 500) = 0x61F47D00) ∧
  (decode 0x78000000 = .command (.frbg .g2) ∧ encode (.frbg .g2) = 0x78000000) ∧
  (decode 0x80001000 = .command (.setsrc 0x1000) ∧ encode (.setsrc 0x1000) = 0x80001000) ∧
  (decode 0x88001000 = .command (.setdst 0x1000) ∧ encode (.setdst 0x1000) = 0x88001000) ∧
  (decode 0x90030140 = .command (.gnew .g0 3 5) ∧ encode (.gnew .g0 3 5) = 0x90030140)

/-- R173, R82: the reserved words are exactly the words that match no row, and such a word at `pc` raises
IllegalCommand and changes nothing else. -/
def Obligations.IllegalWordRaisesIllegalCommand : Prop :=
  (∀ w : Word, ReservedWord w ↔ ∀ r ∈ opcodeTable, ¬r.Matches w) ∧
  (∀ (s : State) (w : Word), s.fault = 0 → s.prog.length < 2 ^ 32 → s.prog[s.pc.toNat]? = some w → ReservedWord w →
    step s = .next { s with fault := 1, fpc := s.pc })

/-! The step (10_state.md R26) -/

/-- R26: the step of a core that is not halted runs the command that `prog[pc]` decodes to, and nothing around it. -/
def Obligations.StepRunsTheDecodedCommand : Prop :=
  ∀ (s : State) (w : Word) (i : Instr), s.fault = 0 → s.prog.length < 2 ^ 32 → s.prog[s.pc.toNat]? = some w →
    decode w = .command i → step s = exec i s

/-- R26, R203: a halted core takes no step, and a run that has ended takes no step; the model's names for that are the
stops of LOG 8. -/
def Obligations.NoStepWhenHaltedOrEnded : Prop :=
  ∀ s : State,
    (s.fault ≠ 0 → step s = .fault .halted) ∧
    (s.fault = 0 → s.prog.length < 2 ^ 32 → s.pc.toNat = s.prog.length → step s = .fault .runEnded)

/-- R172, R180, R26, R185: a command of a core that is not halted completes, advancing `pc` by 1 and leaving `FAULT` and
`FPC`, or takes one fault: `FAULT` its code, `FPC` and `pc` the command's own index, the core halted, nothing else changed;
only RngExhausted (R180) also changes the destination slot and the stream position. -/
def Obligations.CommandCompletesOrTakesOneFault : Prop :=
  ∀ (i : Instr) (s : State), s.fault = 0 → ∃ t, exec i s = .next t ∧
    ((t.fault = 0 ∧ t.fpc = s.fpc ∧ t.pc = s.pc + 1) ∨
      ∃ c : Cause, t.fault = causeCode c ∧ t.fpc = s.pc ∧ t.pc = s.pc ∧ step t = .fault .halted ∧
        (c ≠ .rngExhausted → t = { s with fault := causeCode c, fpc := s.pc }) ∧
        (c = .rngExhausted → t.cfg = s.cfg ∧ t.prog = s.prog ∧ t.rng = s.rng ∧ t.buf = s.buf ∧ t.res = s.res ∧
          t.srcBase = s.srcBase ∧ t.dstBase = s.dstBase ∧ ∀ g, destinationOf i ≠ some g → t.slot g = s.slot g))

/-- R182: of the fault conditions that hold the one with the lowest code is raised; where none holds the command
completes. -/
def Obligations.LowestFaultCodeWins : Prop :=
  ∀ (i : Instr) (s : State), s.fault = 0 →
    (∀ c, FaultCondition i s c → (∀ d, FaultCondition i s d → (causeCode c).toNat ≤ (causeCode d).toNat) →
      ∃ t, exec i s = .next t ∧ t.fault = causeCode c ∧ t.fpc = s.pc ∧ t.pc = s.pc) ∧
    ((∀ c, ¬FaultCondition i s c) → ∃ t, exec i s = .next t ∧ t.fault = 0 ∧ t.pc = s.pc + 1)

/-! The Bit-Tile Codec (41_tile_codec.md) -/

/-- R100: `inverse` on both values, as XOR with 1, as `1 − b`, and twice. -/
def Obligations.InverseIsTheComplement : Prop :=
  inverse false = true ∧ inverse true = false ∧ ∀ b : Bit, inverse b = bitXor b true ∧ bitNum (inverse b) = 1 - bitNum b ∧ inverse (inverse b) = b

/-- R102: the words of INV, its operand bit, the words of its opcode that are illegal, and its whole effect: `RES` and
`pc`, nothing else. -/
def Obligations.InvWritesTheInverse : Prop :=
  (∀ w : Word, w &&& 0xFFFFFFFE = 0x10000000 ↔ decode w = .command (.inv (w.getLsbD 0))) ∧
  (∀ w : Word, w >>> 28 = 1 → w &&& 0x0FFFFFFE ≠ 0 → decode w = .illegal (.reservedBits 1)) ∧
  (∀ (b : Bit) (s : State), exec (.inv b) s = .next { s with res := !b, pc := s.pc + 1 })

/-- R103, R101: SETTILE on a valid slot at an even position with room writes leading, following / following, leading
into the four cells of the tile, and changes nothing else but `pc`. -/
def Obligations.SettileWritesItsFourCells : Prop :=
  ∀ (s : State) (g : Slot) (x : Grid) (row col : Nat) (lead foll : Bit), s.slot g = some x → x.wf →
    row % 2 = 0 → col % 2 = 0 → row + 1 < x.height → col + 1 < x.width →
    ∃ y : Grid, exec (.settile g row col lead foll) s = .next (s.setSlot g (some y)).advance ∧
      y.wf ∧ y.width = x.width ∧ y.height = x.height ∧
      y.cell row col = lead ∧ y.cell row (col + 1) = foll ∧ y.cell (row + 1) col = foll ∧
      y.cell (row + 1) (col + 1) = lead ∧
      ∀ r c, ¬((r = row ∨ r = row + 1) ∧ (c = col ∨ c = col + 1)) → y.cell? r c = x.cell? r c

/-- R103, R176, R178: SETTILE on an invalid slot takes SlotInvalid; on a valid one at an odd position or without room
it takes TileRange; nothing else changes. -/
def Obligations.SettileFaults : Prop :=
  ∀ (s : State) (g : Slot) (row col : Nat) (lead foll : Bit),
    (s.slot g = none → exec (.settile g row col lead foll) s = .next { s with fault := 4, fpc := s.pc }) ∧
    (∀ x : Grid, s.slot g = some x → (row % 2 = 1 ∨ col % 2 = 1 ∨ x.height ≤ row + 1 ∨ x.width ≤ col + 1) →
      exec (.settile g row col lead foll) s = .next { s with fault := 6, fpc := s.pc })

/-! The Share Generator (42_share_generator.md) -/

/-- R110, R111: RANDSHARE within capacity, with even operands and enough bits in the stream, makes slot `gd` a grid of
that size whose tile at (2i, 2j) has the draw number `i × (width/2) + j` on its diagonal and its inverse off it; the
stream moves on by the number of tiles; nothing else changes but `pc`. -/
def Obligations.RandshareFillsTheSlotFromTheStream : Prop :=
  ∀ (s : State) (gd : Slot) (w h : Nat), w ≤ s.cfg.maxW → h ≤ s.cfg.maxH → w % 2 = 0 → h % 2 = 0 →
    (∀ k, remaining s.rng s.rngPos = some k → w / 2 * (h / 2) ≤ k) →
    ∃ y : Grid, exec (.randshare gd w h) s =
        .next ((s.setRngPos (s.rngPos + w / 2 * (h / 2))).setSlot gd (some y)).advance ∧
      y.wf ∧ y.width = w ∧ y.height = h ∧
      ∀ i j, i < h / 2 → j < w / 2 →
        let lead := bitAt s.rng (s.rngPos + (i * (w / 2) + j))
        y.cell (2 * i) (2 * j) = lead ∧ y.cell (2 * i) (2 * j + 1) = inverse lead ∧
        y.cell (2 * i + 1) (2 * j) = inverse lead ∧ y.cell (2 * i + 1) (2 * j + 1) = lead

/-- R110, R174, R175: RANDSHARE over capacity takes DimRange; within it with an odd operand, OddDimension; nothing else
changes, and no draw is taken. -/
def Obligations.RandshareOperandFaults : Prop :=
  ∀ (s : State) (gd : Slot) (w h : Nat),
    (s.cfg.maxW < w ∨ s.cfg.maxH < h → exec (.randshare gd w h) s = .next { s with fault := 2, fpc := s.pc }) ∧
    (w ≤ s.cfg.maxW → h ≤ s.cfg.maxH → w % 2 = 1 ∨ h % 2 = 1 →
      exec (.randshare gd w h) s = .next { s with fault := 3, fpc := s.pc })

/-- R112: when a finite stream cannot deliver the draws, RANDSHARE consumes the rest of it, makes slot `gd` invalid and
takes RngExhausted, which halts the core, changing nothing else; with an endless stream it completes. -/
def Obligations.RandshareExhaustion : Prop :=
  ∀ (s : State) (gd : Slot) (w h : Nat), w ≤ s.cfg.maxW → h ≤ s.cfg.maxH → w % 2 = 0 → h % 2 = 0 →
    (∀ bits, s.rng = .finite bits → bits.length - s.rngPos < w / 2 * (h / 2) →
      let t : State := { (s.setRngPos bits.length).setSlot gd none with fault := 8, fpc := s.pc }
      exec (.randshare gd w h) s = .next t ∧ step t = .fault .halted) ∧
    (∀ n, s.rng = .endless n →
      ∃ t, exec (.randshare gd w h) s = .next t ∧ t.fault = s.fault ∧ t.pc = s.pc + 1 ∧ t.valid gd = true)

/-- R113: after RANDSHARE completes every tile of its slot is diagonal-complementary and leads with its draw, and the
grid depends on nothing but the operands and those draws: any other state that delivers the same bits, whatever its slots,
registers and `BUF` hold, gets the same grid. -/
def Obligations.ShareIsDiagonalAndDependsOnItsDrawsOnly : Prop :=
  ∀ (s t : State) (gd : Slot) (w h : Nat), s.fault = 0 → exec (.randshare gd w h) s = .next t → t.fault = 0 →
    ∃ y : Grid, t.slot gd = some y ∧
      (∀ i j, i < h / 2 → j < w / 2 → DiagonalTile y (2 * i) (2 * j) ∧
        y.cell (2 * i) (2 * j) = bitAt s.rng (s.rngPos + (i * (w / 2) + j))) ∧
      ∀ (s' t' : State) (gd' : Slot), s'.fault = 0 → exec (.randshare gd' w h) s' = .next t' → t'.fault = 0 →
        (∀ k, k < w / 2 * (h / 2) → bitAt s'.rng (s'.rngPos + k) = bitAt s.rng (s.rngPos + k)) →
        t'.slot gd' = some y

/-- R110, R111: the loop of R110, drawing one bit and setting one tile at a time from any grid of the size, leaves the
grid and the stream position that RANDSHARE leaves. -/
def Obligations.RandshareIsTheSetTileLoop : Prop :=
  ∀ (s : State) (gd : Slot) (w h : Nat) (x : Grid), w ≤ s.cfg.maxW → h ≤ s.cfg.maxH → w % 2 = 0 → h % 2 = 0 →
    rngShort s.rng s.rngPos (w / 2 * (h / 2)) = false → x.wf → x.width = w → x.height = h →
    ∃ (y : Grid) (pos : Nat), shareLoop s.rng (tilePositions w h) x s.rngPos = some (y, pos) ∧
      exec (.randshare gd w h) s = .next ((s.setRngPos pos).setSlot gd (some y)).advance

/-! The Encoder (43_encoder.md) -/

/-- R122 (and the effect of R120): ENCODE of two valid slots of the right sizes makes slot `gd` the grid of the share's
size with `C[2i+a][2j+b] = S[i][j] XOR R[2i][2j] XOR a XOR b`, and changes nothing else but `pc`. -/
def Obligations.EncodeMakesTheCipher : Prop :=
  ∀ (s : State) (gd gs gr : Slot) (S R : Grid), s.slot gs = some S → s.slot gr = some R →
    R.width = 2 * S.width → R.height = 2 * S.height →
    ∃ y : Grid, exec (.encode gd gs gr) s = .next (s.setSlot gd (some y)).advance ∧
      y.wf ∧ y.width = R.width ∧ y.height = R.height ∧
      (∀ i j, i < S.height → j < S.width → ∀ a b : Bit,
        y.cell (2 * i + bitNum a) (2 * j + bitNum b) =
          bitXor (bitXor (bitXor (S.cell i j) (R.cell (2 * i) (2 * j))) a) b) ∧
      (∀ i j, i < S.height → j < S.width →
        y.cell (2 * i) (2 * j) = if S.cell i j = R.cell (2 * i) (2 * j) then false else true)

/-- R120, R176, R177: ENCODE with an invalid source takes SlotInvalid; with sizes that are not exactly double it takes
DimMismatch; nothing else changes. -/
def Obligations.EncodeFaults : Prop :=
  ∀ (s : State) (gd gs gr : Slot),
    (s.slot gs = none ∨ s.slot gr = none →
      exec (.encode gd gs gr) s = .next { s with fault := 4, fpc := s.pc }) ∧
    (∀ S R : Grid, s.slot gs = some S → s.slot gr = some R → R.width ≠ 2 * S.width ∨ R.height ≠ 2 * S.height →
      exec (.encode gd gs gr) s = .next { s with fault := 5, fpc := s.pc })

/-- R123: after ENCODE completes, slot `gd` has the share's size and every tile of it is diagonal-complementary, whatever
the sources held. -/
def Obligations.CipherTilesAreDiagonal : Prop :=
  ∀ (s t : State) (gd gs gr : Slot) (R : Grid), s.fault = 0 → s.slot gr = some R →
    exec (.encode gd gs gr) s = .next t → t.fault = 0 →
    ∃ y : Grid, t.slot gd = some y ∧ y.width = R.width ∧ y.height = R.height ∧
      ∀ i j, 2 * i + 1 < R.height → 2 * j + 1 < R.width → DiagonalTile y (2 * i) (2 * j)

/-- R124: two sources encoded with one share: equal source bits give equal cipher tiles, different bits give tiles that
differ in all four cells, and the share is unchanged unless its slot is the destination. -/
def Obligations.SameShareTwoSources : Prop :=
  ∀ (s s' : State) (gd gs gr gd' gs' gr' : Slot) (S S' R : Grid), s.slot gs = some S → s'.slot gs' = some S' →
    s.slot gr = some R → s'.slot gr' = some R → R.width = 2 * S.width → R.height = 2 * S.height →
    S'.width = S.width → S'.height = S.height →
    ∃ (t t' : State) (y y' : Grid), exec (.encode gd gs gr) s = .next t ∧ exec (.encode gd' gs' gr') s' = .next t' ∧
      t.slot gd = some y ∧ t'.slot gd' = some y' ∧
      (gd ≠ gr → t.slot gr = some R) ∧ (gd' ≠ gr' → t'.slot gr' = some R) ∧
      ∀ i j a b, i < S.height → j < S.width → a < 2 → b < 2 →
        (S.cell i j = S'.cell i j → y.cell (2 * i + a) (2 * j + b) = y'.cell (2 * i + a) (2 * j + b)) ∧
        (S.cell i j ≠ S'.cell i j → y.cell (2 * i + a) (2 * j + b) = inverse (y'.cell (2 * i + a) (2 * j + b)))

/-- R121 (for the loop of R120): visiting the source pixels in any order, each at least once, setting one tile at a time
from any grid of the size, leaves the grid that ENCODE leaves. -/
def Obligations.EncodeIsTheSetTileLoopInAnyOrder : Prop :=
  ∀ (s : State) (gd gs gr : Slot) (S R x : Grid) (ps : List (Nat × Nat)), s.slot gs = some S → s.slot gr = some R →
    R.width = 2 * S.width → R.height = 2 * S.height → x.wf → x.width = R.width → x.height = R.height →
    (∀ i j, (i, j) ∈ ps ↔ i < S.height ∧ j < S.width) →
    exec (.encode gd gs gr) s = .next (s.setSlot gd (some (cipherLoop S R ps x))).advance

/-! The Recoverer (44_recoverer.md) -/

/-- R130: RECOVER of two valid slots of equal size makes slot `gd` the grid of that size with the exclusive or of the two
in every cell, and changes nothing else but `pc`. -/
def Obligations.RecoverXorsTheCells : Prop :=
  ∀ (s : State) (gd ga gb : Slot) (A B : Grid), s.slot ga = some A → s.slot gb = some B → A.width = B.width →
    A.height = B.height →
    ∃ y : Grid, exec (.recover gd ga gb) s = .next (s.setSlot gd (some y)).advance ∧
      y.wf ∧ y.width = A.width ∧ y.height = A.height ∧
      ∀ r c, r < A.height → c < A.width → y.cell r c = bitXor (A.cell r c) (B.cell r c)

/-- R130, R176, R177: RECOVER with an invalid source takes SlotInvalid; with unequal sizes it takes DimMismatch; nothing
else changes. -/
def Obligations.RecoverFaults : Prop :=
  ∀ (s : State) (gd ga gb : Slot),
    (s.slot ga = none ∨ s.slot gb = none →
      exec (.recover gd ga gb) s = .next { s with fault := 4, fpc := s.pc }) ∧
    (∀ A B : Grid, s.slot ga = some A → s.slot gb = some B → A.width ≠ B.width ∨ A.height ≠ B.height →
      exec (.recover gd ga gb) s = .next { s with fault := 5, fpc := s.pc })

/-- R131: where the tiles of both inputs are diagonal-complementary, the recovered tile has in all four cells the
exclusive or of the two leading bits: 0 for the same pattern, 1 for opposite ones. -/
def Obligations.XorOfDiagonalTilesIsUniform : Prop :=
  ∀ (s : State) (gd ga gb : Slot) (A B : Grid), s.slot ga = some A → s.slot gb = some B → A.width = B.width →
    A.height = B.height →
    ∃ (t : State) (y : Grid), exec (.recover gd ga gb) s = .next t ∧ t.slot gd = some y ∧
      ∀ r c, r % 2 = 0 → c % 2 = 0 → r + 1 < A.height → c + 1 < A.width → DiagonalTile A r c → DiagonalTile B r c →
        UniformTile y r c (bitXor (A.cell r c) (B.cell r c)) ∧
        (A.cell r c = B.cell r c → UniformTile y r c false) ∧
        (A.cell r c ≠ B.cell r c → UniformTile y r c true)

/-- R132: encode any source with any grid of double size, recover the cipher with that grid in either operand order:
every tile's leading cell is the source bit, and all four cells are wherever the share's tile is
diagonal-complementary. -/
def Obligations.RecoverOfEncodeIsTheSource : Prop :=
  ∀ (s : State) (gs gr gc gx : Slot) (S R : Grid), s.slot gs = some S → s.slot gr = some R →
    R.width = 2 * S.width → R.height = 2 * S.height → gc ≠ gr →
    ∃ (t u : State) (x : Grid), exec (.encode gc gs gr) s = .next t ∧ exec (.recover gx gc gr) t = .next u ∧
      exec (.recover gx gr gc) t = .next u ∧ u.slot gx = some x ∧ x.width = R.width ∧ x.height = R.height ∧
      ∀ i j, i < S.height → j < S.width →
        x.cell (2 * i) (2 * j) = S.cell i j ∧
        (DiagonalTile R (2 * i) (2 * j) → UniformTile x (2 * i) (2 * j) (S.cell i j))

/-- R132 with a share made by RANDSHARE: the recovered grid is exactly the source drawn at doubled size, whatever bits
the stream delivered. -/
def Obligations.TrueShareRecoversTheDoubledSource : Prop :=
  ∀ (s : State) (gs gr gc gx : Slot) (S : Grid), s.slot gs = some S → gr ≠ gs → gc ≠ gr →
    2 * S.width ≤ s.cfg.maxW → 2 * S.height ≤ s.cfg.maxH →
    (∀ k, remaining s.rng s.rngPos = some k → S.width * S.height ≤ k) →
    ∃ (t u v : State) (x : Grid), exec (.randshare gr (2 * S.width) (2 * S.height)) s = .next t ∧
      exec (.encode gc gs gr) t = .next u ∧ exec (.recover gx gc gr) u = .next v ∧ v.slot gx = some x ∧
      x.width = 2 * S.width ∧ x.height = 2 * S.height ∧
      ∀ r c, r < 2 * S.height → c < 2 * S.width → x.cell r c = S.cell (r / 2) (c / 2)

/-- R133: the two operand orders of RECOVER leave the same state, faults included. -/
def Obligations.RecoverIsSymmetric : Prop :=
  ∀ (s : State) (gd ga gb : Slot), exec (.recover gd ga gb) s = exec (.recover gd gb ga) s

/-! The Bitmap Adapter (45_bitmap_adapter.md) -/

/-- R140, R141: the words of SETSRC and SETDST, their address field, the words of their opcode that are illegal, and their
whole effect: the base register and `pc`, nothing else. -/
def Obligations.SetsrcAndSetdstWriteTheBase : Prop :=
  (∀ w : Word, w &&& 0xFF000000 = 0x80000000 ↔ decode w = .command (.setsrc (w.setWidth 24))) ∧
  (∀ w : Word, w &&& 0xFF000000 = 0x88000000 ↔ decode w = .command (.setdst (w.setWidth 24))) ∧
  (∀ w : Word, w >>> 28 = 8 → w &&& 0x07000000 ≠ 0 → decode w = .illegal (.reservedBits 8)) ∧
  (∀ (a : Addr) (s : State), exec (.setsrc a) s = .next { s with srcBase := a, pc := s.pc + 1 }) ∧
  (∀ (a : Addr) (s : State), exec (.setdst a) s = .next { s with dstBase := a, pc := s.pc + 1 })

/-- R142, R144: TOBG within capacity and with its buffer inside `BUF` makes slot `gd` a grid of that size whose cell
(row, col) is 1 exactly when the byte at `SRCBASE + row × width + col` is 255; nothing else changes but `pc`. -/
def Obligations.TobgReadsThePixelBuffer : Prop :=
  ∀ (s : State) (gd : Slot) (w h : Nat), w ≤ s.cfg.maxW → h ≤ s.cfg.maxH → s.srcBase.toNat + w * h ≤ s.cfg.bufBytes →
    ∃ y : Grid, exec (.tobg gd w h) s = .next (s.setSlot gd (some y)).advance ∧
      y.wf ∧ y.width = w ∧ y.height = h ∧
      ∀ row col, row < h → col < w →
        (y.cell row col = true ↔ memRead s (s.srcBase.toNat + row * w + col) = 255)

/-- R142, R174, R179: TOBG over capacity takes DimRange; within it with a buffer that reaches past the end of `BUF`,
AddrRange; nothing else changes. -/
def Obligations.TobgFaults : Prop :=
  ∀ (s : State) (gd : Slot) (w h : Nat),
    (s.cfg.maxW < w ∨ s.cfg.maxH < h → exec (.tobg gd w h) s = .next { s with fault := 2, fpc := s.pc }) ∧
    (w ≤ s.cfg.maxW → h ≤ s.cfg.maxH → s.cfg.bufBytes < s.srcBase.toNat + w * h →
      exec (.tobg gd w h) s = .next { s with fault := 7, fpc := s.pc })

/-- R143, R144: FRBG of a valid slot whose buffer lies inside `BUF` writes 255 for a 1 and 0 for a 0 on the three
channels of every pixel at `DSTBASE + 3 × (row × W + col) + ch`; every byte outside the `3 × W × H` bytes from `DSTBASE`
reads as before; nothing else changes but `pc`. -/
def Obligations.FrbgWritesTheRgbBuffer : Prop :=
  ∀ (s : State) (gs : Slot) (x : Grid), s.slot gs = some x →
    s.dstBase.toNat + 3 * x.width * x.height ≤ s.cfg.bufBytes →
    ∃ m : Memory, exec (.frbg gs) s = .next (s.setBuf m).advance ∧
      (∀ row col ch, row < x.height → col < x.width → ch < 3 →
        bufRead m (s.dstBase.toNat + 3 * (row * x.width + col) + ch) =
          if x.cell row col = true then 255 else 0) ∧
      (∀ a, a < s.dstBase.toNat ∨ s.dstBase.toNat + 3 * x.width * x.height ≤ a → bufRead m a = memRead s a)

/-- R143, R176, R179: FRBG of an invalid slot takes SlotInvalid; of a valid one whose buffer reaches past the end of
`BUF`, AddrRange; no byte is written and nothing else changes. -/
def Obligations.FrbgFaults : Prop :=
  ∀ (s : State) (gs : Slot),
    (s.slot gs = none → exec (.frbg gs) s = .next { s with fault := 4, fpc := s.pc }) ∧
    (∀ x : Grid, s.slot gs = some x → s.cfg.bufBytes < s.dstBase.toNat + 3 * x.width * x.height →
      exec (.frbg gs) s = .next { s with fault := 7, fpc := s.pc })

/-- R143, R63: writing the bytes one `MemWrite` at a time, in any order that visits every (row, col, ch), leaves the
state FRBG leaves. -/
def Obligations.FrbgIsTheMemWriteLoopInAnyOrder : Prop :=
  ∀ (s : State) (gs : Slot) (x : Grid) (ps : List (Nat × Nat × Nat)), s.slot gs = some x → Memory.wf s.buf →
    s.dstBase.toNat + 3 * x.width * x.height ≤ s.cfg.bufBytes →
    (∀ row col ch, (row, col, ch) ∈ ps ↔ row < x.height ∧ col < x.width ∧ ch < 3) →
    exec (.frbg gs) s = .next (rgbLoop x ps s).advance

/-- R145: a pixel buffer of 0 and 255 bytes comes back on every channel after TOBG and FRBG; and a valid grid written by
FRBG, one channel of it copied by the host into a pixel buffer, comes back as the same grid by TOBG. -/
def Obligations.AdapterRoundTrip : Prop :=
  (∀ (s : State) (g : Slot) (w h : Nat), w ≤ s.cfg.maxW → h ≤ s.cfg.maxH →
    s.srcBase.toNat + w * h ≤ s.cfg.bufBytes → s.dstBase.toNat + 3 * w * h ≤ s.cfg.bufBytes →
    (∀ n, n < w * h → memRead s (s.srcBase.toNat + n) = 0 ∨ memRead s (s.srcBase.toNat + n) = 255) →
    ∃ t u, exec (.tobg g w h) s = .next t ∧ exec (.frbg g) t = .next u ∧
      ∀ x y ch, x < w → y < h → ch < 3 →
        memRead u (s.dstBase.toNat + 3 * (y * w + x) + ch) = memRead s (s.srcBase.toNat + (y * w + x))) ∧
  (∀ (s s' : State) (g g' : Slot) (x : Grid) (ch : Nat), s.slot g = some x → x.wf →
    s.dstBase.toNat + 3 * x.width * x.height ≤ s.cfg.bufBytes → ch < 3 →
    x.width ≤ s'.cfg.maxW → x.height ≤ s'.cfg.maxH → s'.srcBase.toNat + x.width * x.height ≤ s'.cfg.bufBytes →
    ∃ t, exec (.frbg g) s = .next t ∧
      ((∀ n, n < x.width * x.height →
          memRead s' (s'.srcBase.toNat + n) = memRead t (s.dstBase.toNat + 3 * n + ch)) →
        ∃ u, exec (.tobg g' x.width x.height) s' = .next u ∧ u.slot g' = some x))

/-! Grid allocation (46_grid_management.md) -/

/-- R160: GNEW within capacity makes slot `gd` a grid of that size with every cell 0; nothing else changes but `pc`. -/
def Obligations.GnewMakesTheZeroGrid : Prop :=
  ∀ (s : State) (gd : Slot) (w h : Nat), w ≤ s.cfg.maxW → h ≤ s.cfg.maxH →
    ∃ y : Grid, exec (.gnew gd w h) s = .next (s.setSlot gd (some y)).advance ∧
      y.wf ∧ y.width = w ∧ y.height = h ∧ ∀ r c, r < h → c < w → y.cell? r c = some false

/-- R160, R174: GNEW over capacity takes DimRange; nothing else changes. -/
def Obligations.GnewFault : Prop :=
  ∀ (s : State) (gd : Slot) (w h : Nat), s.cfg.maxW < w ∨ s.cfg.maxH < h →
    exec (.gnew gd w h) s = .next { s with fault := 2, fpc := s.pc }

/-! The whole machine -/

/-- R24, R28, R29, R34, R52, R61: the frame of all ten commands. No command changes `prog`, `rng` or the parameters; only
INV changes `RES`, only SETSRC `SRCBASE`, only SETDST `DSTBASE`, only RANDSHARE the stream position; only FRBG changes a byte
of `BUF`; no slot changes but the one the command names as its destination (SETTILE's slot counts as one). -/
def Obligations.OnlyTheNamedCommandWritesEachPiece : Prop :=
  ∀ (i : Instr) (s t : State), exec i s = .next t →
    t.cfg = s.cfg ∧ t.prog = s.prog ∧ t.rng = s.rng ∧
    ((∀ b, i ≠ .inv b) → t.res = s.res) ∧
    ((∀ a, i ≠ .setsrc a) → t.srcBase = s.srcBase) ∧
    ((∀ a, i ≠ .setdst a) → t.dstBase = s.dstBase) ∧
    ((∀ g w h, i ≠ .randshare g w h) → t.rngPos = s.rngPos) ∧
    ((∀ g, i ≠ .frbg g) → ∀ a, memRead t a = memRead s a) ∧
    (∀ g, destinationOf i ≠ some g → t.slot g = s.slot g)

/-- R27: a command that clears a valid bit is RANDSHARE, of its destination slot, when it raises RngExhausted. -/
def Obligations.OnlyExhaustionClearsAValidBit : Prop :=
  ∀ (i : Instr) (s t : State) (g : Slot), exec i s = .next t → s.valid g = true → t.valid g = false →
    ∃ w h, i = .randshare g w h ∧ t.fault = causeCode .rngExhausted

/-- R22, R25, R26, R30, R31, R33, R50: every step keeps the machine's invariant. -/
def Obligations.StepKeepsTheInvariant : Prop :=
  ∀ s t : State, Inv s → step s = .next t → Inv t

/-- The state after reset, with the parameters' defaults of R4 and the choices of LOG 2, LOG 4 and LOG 5 for what R200 does
not give (`BUF`, `rng`, `prog`), meets the invariant. -/
def Obligations.ResetStateMeetsTheInvariant : Prop := Inv State.reset

/-- R11, R25, R200: every move of the host keeps the machine's invariant. When the host may move, and that a connected
source starts at position 0, is the model's reading (LOG 7, LOG 4). -/
def Obligations.HostMovesKeepTheInvariant : Prop :=
  ∀ (m : HostMove) (s t : State), Inv s → hostMove m s = .next t → Inv t

/-- R200: the host can reset the core in any state, halted or not, and every register of the block then has its reset
value; nothing else leaves the halted state: there the block takes no step, and no other host move clears `FAULT`. -/
def Obligations.ResetValuesAndTheOnlyWayOutOfHalt : Prop :=
  ∀ s : State,
    (∃ t, hostMove .reset s = .next t ∧ t.pc = 0 ∧ (∀ g, t.valid g = false ∧ t.slot g = none) ∧
      t.res = false ∧ t.srcBase = 0 ∧ t.dstBase = 0 ∧ t.fault = 0 ∧ t.fpc = 0) ∧
    (s.fault ≠ 0 → (∀ t, step s ≠ .next t) ∧
      ∀ m t, m ≠ .reset → hostMove m s = .next t → t.fault = s.fault)

/-- R201, R34: reset touches neither a byte of `BUF` nor the randomness stream or its position; `prog` and the parameters
stay too. -/
def Obligations.ResetKeepsTheEnvironment : Prop :=
  ∀ s t : State, hostMove .reset s = .next t →
    (∀ a, memRead t a = memRead s a) ∧ t.buf = s.buf ∧ t.rng = s.rng ∧ t.rngPos = s.rngPos ∧ t.prog = s.prog ∧
    t.cfg = s.cfg

/-- R207, R11: while a run is in progress every host move except reset, which is never refused (R200), is refused, and the
host reads nothing. That the model refuses, and when it counts a run as in progress, is its own choice (93 U9, LOG 7). -/
def Obligations.HostIsRefusedDuringARun : Prop :=
  ∀ s : State, s.inProgress = true →
    (∀ m, m ≠ .reset → hostMove m s = .refused .hostDuringRun) ∧ hostStatus s = none ∧ ∀ a, hostReadBuf s a = none

/-- R11, R59, R203: before the first command, after the end and in the halted state no run is in progress, and outside a
run the host port is open: the host reads the six registers and every byte of `BUF`; writing a byte leaves that byte written,
every other byte as before and nothing else changed; connecting a source puts it at position 0; at `pc = 0` and `FAULT = 0`
an admitted `prog` is supplied. When a run counts as in progress, that a source starts at position 0 and that `prog` is
supplied there is the model's reading (LOG 4, LOG 7). -/
def Obligations.HostActsOutsideARun : Prop :=
  ∀ s : State,
    (s.pc = 0 ∨ s.fault ≠ 0 ∨ s.final = true → s.inProgress = false) ∧
    (s.inProgress = false →
      hostStatus s = some ⟨s.pc, s.res, s.srcBase, s.dstBase, s.fault, s.fpc⟩ ∧
      (∀ a, a < s.cfg.bufBytes → hostReadBuf s a = some (memRead s a)) ∧
      (∀ a v, a < s.cfg.bufBytes →
        ∃ m : Memory, hostMove (.writeBuf a v) s = .next (s.setBuf m) ∧ bufRead m a = v ∧
          ∀ b, b ≠ a → bufRead m b = memRead s b) ∧
      (∀ src, hostMove (.connectRng src) s = .next { s with rng := src, rngPos := 0 }) ∧
      (∀ p : List Word, s.pc = 0 → s.fault = 0 → p.length < 2 ^ 32 →
        hostMove (.supplyProg p) s = .next { s with prog := p }))

/-- R208, R203: from any state whose `prog` is admitted and whose `pc` is not past its end, the run stops within
`len(prog) - pc` steps, halted or ended. -/
def Obligations.EveryRunEnds : Prop :=
  ∀ s : State, s.prog.length < 2 ^ 32 → s.pc.toNat ≤ s.prog.length →
    ∃ k t, k ≤ s.prog.length - s.pc.toNat ∧ core.run k s = .next t ∧
      ((t.fault ≠ 0 ∧ step t = .fault .halted) ∨ (t.final = true ∧ step t = .fault .runEnded))
end

