-- ==== Sys2Proof/Laws/Encoding.lean ====
section
/-!
SUPPORT. Laws of the encoding helpers: the slot and bit fields round-trip, and what their numbers are at most.
-/

namespace Sys2Proof

@[simp] theorem slotOfNat_slotNum (g : Slot) : slotOfNat (slotNum g) = g := by cases g <;> rfl

@[simp] theorem bitOfNat_bitNum (b : Bit) : bitOfNat (bitNum b) = b := by cases b <;> rfl

theorem slotNum_lt (g : Slot) : slotNum g < 4 := by cases g <;> decide

theorem bitNum_lt (b : Bit) : bitNum b < 2 := by cases b <;> decide

theorem slotNum_slotOfNat {n : Nat} (h : n < 4) : slotNum (slotOfNat n) = n := by
  rcases n with _ | _ | _ | _ | n <;> first | rfl | omega

theorem bitNum_bitOfNat {n : Nat} (h : n < 2) : bitNum (bitOfNat n) = n := by
  rcases n with _ | _ | n <;> first | rfl | omega

theorem fitsTen_iff (n : Nat) : fitsTen n = true ↔ n < 1024 := by simp [fitsTen]

theorem field_lt (w : Word) (lo len : Nat) : field w lo len < 2 ^ len := Nat.mod_lt _ (Nat.two_pow_pos len)

/-- What decoding can give (R72, R71, R80), with the opcode and the must-be-zero bits of each case. -/
inductive DecodeCase (w : Word) : Prop where
  | inv (op : field w 28 4 = 1) (zero : field w 1 27 = 0)
      (eq : decode w = .command (.inv (bitField w 0)))
  | settile (op : field w 28 4 = 2) (zero : field w 0 4 = 0)
      (eq : decode w = .command (.settile (slotField w 26) (field w 16 10) (field w 6 10) (bitField w 5) (bitField w 4)))
  | randshare (op : field w 28 4 = 3) (zero : field w 0 6 = 0)
      (eq : decode w = .command (.randshare (slotField w 26) (field w 16 10) (field w 6 10)))
  | encode (op : field w 28 4 = 4) (zero : field w 0 22 = 0)
      (eq : decode w = .command (.encode (slotField w 26) (slotField w 24) (slotField w 22)))
  | recover (op : field w 28 4 = 5) (zero : field w 0 22 = 0)
      (eq : decode w = .command (.recover (slotField w 26) (slotField w 24) (slotField w 22)))
  | tobg (op : field w 28 4 = 6) (zero : field w 0 6 = 0)
      (eq : decode w = .command (.tobg (slotField w 26) (field w 16 10) (field w 6 10)))
  | frbg (op : field w 28 4 = 7) (zero : field w 0 26 = 0)
      (eq : decode w = .command (.frbg (slotField w 26)))
  | setsrc (op : field w 28 4 = 8) (zero : field w 24 3 = 0 ∧ field w 27 1 = 0)
      (eq : decode w = .command (.setsrc (BitVec.ofNat 24 (field w 0 24))))
  | setdst (op : field w 28 4 = 8) (zero : field w 24 3 = 0 ∧ field w 27 1 = 1)
      (eq : decode w = .command (.setdst (BitVec.ofNat 24 (field w 0 24))))
  | gnew (op : field w 28 4 = 9) (zero : field w 0 6 = 0)
      (eq : decode w = .command (.gnew (slotField w 26) (field w 16 10) (field w 6 10)))
  | reservedOpcode (op : field w 28 4 = 0 ∨ 10 ≤ field w 28 4)
      (eq : decode w = .illegal (.reservedOpcode (field w 28 4)))
  | reservedBits (op : Nat) (is : field w 28 4 = op)
      (bits : (op = 1 ∧ field w 1 27 ≠ 0) ∨ (op = 2 ∧ field w 0 4 ≠ 0) ∨
        ((op = 3 ∨ op = 6 ∨ op = 9) ∧ field w 0 6 ≠ 0) ∨ ((op = 4 ∨ op = 5) ∧ field w 0 22 ≠ 0) ∨
        (op = 7 ∧ field w 0 26 ≠ 0) ∨ (op = 8 ∧ field w 24 3 ≠ 0))
      (eq : decode w = .illegal (.reservedBits op))

/-- Decoding is one of the ten commands or a rejection by name, for every word (R82). -/
theorem decode_cases (w : Word) : DecodeCase w := by
  have hlt := field_lt w 28 4
  have hsel := field_lt w 27 1
  have heq : decode w = decode w := rfl
  conv at heq => rhs; unfold decode
  split at heq
  · next op =>
    by_cases hz : field w 1 27 = 0
    · exact .inv op hz (heq.trans (if_pos hz))
    · exact .reservedBits 1 op (by omega) (heq.trans (if_neg hz))
  · next op =>
    by_cases hz : field w 0 4 = 0
    · exact .settile op hz (heq.trans (if_pos hz))
    · exact .reservedBits 2 op (by omega) (heq.trans (if_neg hz))
  · next op =>
    by_cases hz : field w 0 6 = 0
    · exact .randshare op hz (heq.trans (if_pos hz))
    · exact .reservedBits 3 op (by omega) (heq.trans (if_neg hz))
  · next op =>
    by_cases hz : field w 0 22 = 0
    · exact .encode op hz (heq.trans (if_pos hz))
    · exact .reservedBits 4 op (by omega) (heq.trans (if_neg hz))
  · next op =>
    by_cases hz : field w 0 22 = 0
    · exact .recover op hz (heq.trans (if_pos hz))
    · exact .reservedBits 5 op (by omega) (heq.trans (if_neg hz))
  · next op =>
    by_cases hz : field w 0 6 = 0
    · exact .tobg op hz (heq.trans (if_pos hz))
    · exact .reservedBits 6 op (by omega) (heq.trans (if_neg hz))
  · next op =>
    by_cases hz : field w 0 26 = 0
    · exact .frbg op hz (heq.trans (if_pos hz))
    · exact .reservedBits 7 op (by omega) (heq.trans (if_neg hz))
  · next op =>
    by_cases hz : field w 24 3 = 0
    · rw [if_pos hz] at heq
      by_cases hs : field w 27 1 = 0
      · exact .setsrc op ⟨hz, hs⟩ (heq.trans (if_pos hs))
      · exact .setdst op ⟨hz, by omega⟩ (heq.trans (if_neg hs))
    · exact .reservedBits 8 op (by omega) (heq.trans (if_neg hz))
  · next op =>
    by_cases hz : field w 0 6 = 0
    · exact .gnew op hz (heq.trans (if_pos hz))
    · exact .reservedBits 9 op (by omega) (heq.trans (if_neg hz))
  · next h1 h2 h3 h4 h5 h6 h7 h8 h9 =>
    refine .reservedOpcode ?_ heq
    by_contra hc
    have hop : 1 ≤ field w 28 4 ∧ field w 28 4 ≤ 9 := by omega
    generalize field w 28 4 = n at *
    have hn : n = 1 ∨ n = 2 ∨ n = 3 ∨ n = 4 ∨ n = 5 ∨ n = 6 ∨ n = 7 ∨ n = 8 ∨ n = 9 := by omega
    rcases hn with h | h | h | h | h | h | h | h | h
    exacts [h1 h, h2 h, h3 h, h4 h, h5 h, h6 h, h7 h, h8 h, h9 h]

end Sys2Proof
end

