-- ==== Sys2Proof/Laws/Grids.lean ====
section
/-!
SUPPORT. Laws of grid values: reading a made grid, reading after `set_tile`, the size of every grid a command makes, and
that a grid is determined by its cells.
-/

namespace Sys2Proof.Machine

@[simp] theorem gridOf_width (h w : Nat) (f : Nat → Nat → Bit) : (gridOf h w f).width = w := rfl

@[simp] theorem gridOf_height (h w : Nat) (f : Nat → Nat → Bit) : (gridOf h w f).height = h := rfl

/-- A made grid has every cell of its size (R22). -/
theorem gridOf_wf (h w : Nat) (f : Nat → Nat → Bit) : (gridOf h w f).wf := by
  constructor
  · simp [gridOf]
  · intro row hrow
    simp only [gridOf, List.mem_map] at hrow
    obtain ⟨r, -, rfl⟩ := hrow
    simp [gridOf]

/-- Reading a cell of a made grid gives what it was made of. -/
theorem gridOf_cell? (h w : Nat) (f : Nat → Nat → Bit) (r c : Nat) (hr : r < h) (hc : c < w) :
    (gridOf h w f).cell? r c = some (f r c) := by
  simp [gridOf, Grid.cell?, hr, hc]

theorem gridOf_cell (h w : Nat) (f : Nat → Nat → Bit) (r c : Nat) (hr : r < h) (hc : c < w) :
    (gridOf h w f).cell r c = f r c := by
  simp [Grid.cell, gridOf_cell? h w f r c hr hc]

@[simp] theorem tiledGrid_width (h w : Nat) (lead : Nat → Nat → Bit) : (tiledGrid h w lead).width = w := rfl

@[simp] theorem tiledGrid_height (h w : Nat) (lead : Nat → Nat → Bit) : (tiledGrid h w lead).height = h := rfl

theorem tiledGrid_wf (h w : Nat) (lead : Nat → Nat → Bit) : (tiledGrid h w lead).wf := gridOf_wf h w _

/-- The cell of a tiled grid in the tile that holds it. -/
theorem tiledGrid_cell (h w : Nat) (lead : Nat → Nat → Bit) (r c : Nat) (hr : r < h) (hc : c < w) :
    (tiledGrid h w lead).cell r c =
      tileCell (lead (r / 2) (c / 2)) (inverse (lead (r / 2) (c / 2))) (r % 2) (c % 2) :=
  gridOf_cell h w _ r c hr hc

/-- A grid of its size has exactly the cells inside it. -/
theorem Grid.cell?_isSome {x : Grid} (hx : x.wf) (r c : Nat) :
    (x.cell? r c).isSome = true ↔ r < x.height ∧ c < x.width := by
  obtain ⟨hlen, hrows⟩ := hx
  unfold Grid.cell?
  by_cases hr : r < x.rows.length
  · have hrow := hrows x.rows[r] (List.getElem_mem hr)
    rw [List.getElem?_eq_getElem hr]
    simp [hrow, ← hlen, hr]
  · rw [List.getElem?_eq_none (by omega)]
    simp
    omega

theorem Grid.cell?_eq_some {x : Grid} (hx : x.wf) {r c : Nat} (hr : r < x.height) (hc : c < x.width) :
    x.cell? r c = some (x.cell r c) := by
  have h := (Grid.cell?_isSome hx r c).2 ⟨hr, hc⟩
  obtain ⟨v, hv⟩ := Option.isSome_iff_exists.1 h
  simp [Grid.cell, hv]

/-- A grid value is determined by its size and its cells. -/
theorem Grid.ext_cells {x y : Grid} (hx : x.wf) (hy : y.wf) (hw : x.width = y.width) (hh : x.height = y.height)
    (hc : ∀ r c, r < x.height → c < x.width → x.cell r c = y.cell r c) : x = y := by
  have hrows : x.rows = y.rows := by
    apply List.ext_getElem (by rw [hx.1, hy.1, hh])
    intro r h1 h2
    have hr : r < x.height := by rw [← hx.1]; exact h1
    have hwx := hx.2 _ (List.getElem_mem h1)
    have hwy := hy.2 _ (List.getElem_mem h2)
    apply List.ext_getElem (by rw [hwx, hwy, hw])
    intro c h3 h4
    have h := hc r c hr (by omega)
    simpa [Grid.cell, Grid.cell?, List.getElem?_eq_getElem h1, List.getElem?_eq_getElem h2,
      List.getElem?_eq_getElem h3, List.getElem?_eq_getElem h4] using h
  cases x
  cases y
  simp_all

@[simp] theorem Grid.setCell_width (x : Grid) (r c : Nat) (v : Bit) : (x.setCell r c v).width = x.width := rfl

@[simp] theorem Grid.setCell_height (x : Grid) (r c : Nat) (v : Bit) : (x.setCell r c v).height = x.height := rfl

theorem Grid.setCell_wf {x : Grid} (hx : x.wf) (r c : Nat) (v : Bit) : (x.setCell r c v).wf := by
  constructor
  · simpa [Grid.setCell] using hx.1
  · intro row hrow
    obtain ⟨k, hk, rfl⟩ := List.getElem_of_mem hrow
    simp only [Grid.setCell, List.length_modify] at hk
    have hrow := hx.2 _ (List.getElem_mem hk)
    simp only [Grid.setCell, List.getElem_modify]
    split <;> simpa using hrow

/-- Writing one cell changes that cell, if the grid has it, and no other. -/
theorem Grid.setCell_cell? (x : Grid) (r c : Nat) (v : Bit) (r' c' : Nat) :
    (x.setCell r c v).cell? r' c' =
      if r' = r ∧ c' = c then (x.cell? r c).map (fun _ => v) else x.cell? r' c' := by
  unfold Grid.cell? Grid.setCell
  simp only [List.getElem?_modify]
  by_cases hr : r' = r
  · subst hr
    cases hrow : x.rows[r']? with
    | none => simp
    | some row =>
      by_cases hc : c' = c
      · subst hc
        simp only [List.getElem?_set, Option.map_some, Option.map_eq_map, if_true, Option.bind_some, and_self]
        by_cases hlt : c' < row.length <;> simp [hlt]
      · have hne : ¬c = c' := fun h => hc h.symm
        simp [hne, hc]
  · have hne : ¬r = r' := fun h => hr h.symm
    simp [hne, hr]

@[simp] theorem setTile_width (x : Grid) (row col : Nat) (l f : Bit) : (setTile x row col l f).width = x.width := rfl

@[simp] theorem setTile_height (x : Grid) (row col : Nat) (l f : Bit) : (setTile x row col l f).height = x.height :=
  rfl

theorem setTile_wf {x : Grid} (hx : x.wf) (row col : Nat) (l f : Bit) : (setTile x row col l f).wf :=
  Grid.setCell_wf (Grid.setCell_wf (Grid.setCell_wf (Grid.setCell_wf hx ..) ..) ..) ..

@[simp] theorem shareGrid_width (src : BitSource) (pos w h : Nat) : (shareGrid src pos w h).width = w := rfl

@[simp] theorem shareGrid_height (src : BitSource) (pos w h : Nat) : (shareGrid src pos w h).height = h := rfl

theorem shareGrid_wf (src : BitSource) (pos w h : Nat) : (shareGrid src pos w h).wf := tiledGrid_wf h w _

@[simp] theorem cipherGrid_width (src share : Grid) : (cipherGrid src share).width = share.width := rfl

@[simp] theorem cipherGrid_height (src share : Grid) : (cipherGrid src share).height = share.height := rfl

theorem cipherGrid_wf (src share : Grid) : (cipherGrid src share).wf := tiledGrid_wf _ _ _

@[simp] theorem xorGrid_width (a b : Grid) : (xorGrid a b).width = a.width := rfl

@[simp] theorem xorGrid_height (a b : Grid) : (xorGrid a b).height = a.height := rfl

theorem xorGrid_wf (a b : Grid) : (xorGrid a b).wf := gridOf_wf _ _ _

@[simp] theorem bufferGrid_width (s : State) (w h : Nat) : (bufferGrid s w h).width = w := rfl

@[simp] theorem bufferGrid_height (s : State) (w h : Nat) : (bufferGrid s w h).height = h := rfl

theorem bufferGrid_wf (s : State) (w h : Nat) : (bufferGrid s w h).wf := gridOf_wf _ _ _

@[simp] theorem blankGrid_width (w h : Nat) : (blankGrid w h).width = w := rfl

@[simp] theorem blankGrid_height (w h : Nat) : (blankGrid w h).height = h := rfl

theorem blankGrid_wf (w h : Nat) : (blankGrid w h).wf := gridOf_wf _ _ _

end Sys2Proof.Machine
end

