-- ==== Sys2Proof/Laws/HostPort.lean ====
section
/-!
SUPPORT. What the host's port can do: when a run is in progress, and every way a host move can answer a next state.
-/

namespace Sys2Proof.Machine

theorem inProgress_iff (s : State) :
    s.inProgress = true ↔ s.fault = 0 ∧ s.pc ≠ 0 ∧ s.pc.toNat < s.prog.length := by
  simp [State.inProgress]

theorem final_iff (s : State) : s.final = true ↔ s.fault = 0 ∧ s.pc.toNat = s.prog.length := by
  simp [State.final]

/-- Every next state of a host move (R11, R200), with what lets the move through. -/
theorem hostMove_cases {m : HostMove} {s t : State} (h : hostMove m s = .next t) :
    (m = .reset ∧ t = s.resetEvent) ∨
    (∃ a v, m = .writeBuf a v ∧ s.inProgress = false ∧ a < s.cfg.bufBytes ∧ t = memWrite s a v) ∨
    (∃ p : List Word, m = .supplyProg p ∧ s.pc = 0 ∧ s.fault = 0 ∧ p.length < 4294967296 ∧ t = { s with prog := p }) ∨
    (∃ src, m = .connectRng src ∧ s.inProgress = false ∧ t = { s with rng := src, rngPos := 0 }) := by
  cases m with
  | reset =>
    cases h
    exact .inl ⟨rfl, rfl⟩
  | writeBuf a v =>
    simp only [hostMove] at h
    split at h
    · cases h
    · next hp =>
      split at h
      · next ha =>
        cases h
        exact .inr (.inl ⟨a, v, rfl, by simpa using hp, ha, rfl⟩)
      · cases h
  | supplyProg p =>
    simp only [hostMove] at h
    split at h
    · cases h
    · next hp =>
      split at h
      · cases h
      · next hl =>
        cases h
        rw [not_or, not_not, not_not] at hp
        exact .inr (.inr (.inl ⟨p, rfl, hp.1, hp.2, Nat.lt_of_not_le hl, rfl⟩))
  | connectRng src =>
    simp only [hostMove] at h
    split at h
    · cases h
    · next hp =>
      cases h
      exact .inr (.inr (.inr ⟨src, rfl, by simpa using hp, rfl⟩))

end Sys2Proof.Machine
end

