-- ==== Sys2Proof/Laws/State.lean ====
section
/-!
SUPPORT. What each update of `State` does to each field, so that no proof unfolds a record update.
-/

namespace Sys2Proof.Machine

section
variable (s : State)

@[simp] theorem State.cfg_setRes (b : Bit) : (s.setRes b).cfg = s.cfg := rfl
@[simp] theorem State.prog_setRes (b : Bit) : (s.setRes b).prog = s.prog := rfl
@[simp] theorem State.rng_setRes (b : Bit) : (s.setRes b).rng = s.rng := rfl
@[simp] theorem State.rngPos_setRes (b : Bit) : (s.setRes b).rngPos = s.rngPos := rfl
@[simp] theorem State.buf_setRes (b : Bit) : (s.setRes b).buf = s.buf := rfl
@[simp] theorem State.slot0_setRes (b : Bit) : (s.setRes b).slot0 = s.slot0 := rfl
@[simp] theorem State.slot1_setRes (b : Bit) : (s.setRes b).slot1 = s.slot1 := rfl
@[simp] theorem State.slot2_setRes (b : Bit) : (s.setRes b).slot2 = s.slot2 := rfl
@[simp] theorem State.slot3_setRes (b : Bit) : (s.setRes b).slot3 = s.slot3 := rfl
@[simp] theorem State.pc_setRes (b : Bit) : (s.setRes b).pc = s.pc := rfl
@[simp] theorem State.res_setRes (b : Bit) : (s.setRes b).res = b := rfl
@[simp] theorem State.srcBase_setRes (b : Bit) : (s.setRes b).srcBase = s.srcBase := rfl
@[simp] theorem State.dstBase_setRes (b : Bit) : (s.setRes b).dstBase = s.dstBase := rfl
@[simp] theorem State.fault_setRes (b : Bit) : (s.setRes b).fault = s.fault := rfl
@[simp] theorem State.fpc_setRes (b : Bit) : (s.setRes b).fpc = s.fpc := rfl
@[simp] theorem State.slot_setRes (b : Bit) (g : Slot) : (s.setRes b).slot g = s.slot g := by cases g <;> rfl

end

section
variable (s : State)

@[simp] theorem State.cfg_setSrcBase (a : Addr) : (s.setSrcBase a).cfg = s.cfg := rfl
@[simp] theorem State.prog_setSrcBase (a : Addr) : (s.setSrcBase a).prog = s.prog := rfl
@[simp] theorem State.rng_setSrcBase (a : Addr) : (s.setSrcBase a).rng = s.rng := rfl
@[simp] theorem State.rngPos_setSrcBase (a : Addr) : (s.setSrcBase a).rngPos = s.rngPos := rfl
@[simp] theorem State.buf_setSrcBase (a : Addr) : (s.setSrcBase a).buf = s.buf := rfl
@[simp] theorem State.slot0_setSrcBase (a : Addr) : (s.setSrcBase a).slot0 = s.slot0 := rfl
@[simp] theorem State.slot1_setSrcBase (a : Addr) : (s.setSrcBase a).slot1 = s.slot1 := rfl
@[simp] theorem State.slot2_setSrcBase (a : Addr) : (s.setSrcBase a).slot2 = s.slot2 := rfl
@[simp] theorem State.slot3_setSrcBase (a : Addr) : (s.setSrcBase a).slot3 = s.slot3 := rfl
@[simp] theorem State.pc_setSrcBase (a : Addr) : (s.setSrcBase a).pc = s.pc := rfl
@[simp] theorem State.res_setSrcBase (a : Addr) : (s.setSrcBase a).res = s.res := rfl
@[simp] theorem State.srcBase_setSrcBase (a : Addr) : (s.setSrcBase a).srcBase = a := rfl
@[simp] theorem State.dstBase_setSrcBase (a : Addr) : (s.setSrcBase a).dstBase = s.dstBase := rfl
@[simp] theorem State.fault_setSrcBase (a : Addr) : (s.setSrcBase a).fault = s.fault := rfl
@[simp] theorem State.fpc_setSrcBase (a : Addr) : (s.setSrcBase a).fpc = s.fpc := rfl
@[simp] theorem State.slot_setSrcBase (a : Addr) (g : Slot) : (s.setSrcBase a).slot g = s.slot g := by cases g <;> rfl

end

section
variable (s : State)

@[simp] theorem State.cfg_setDstBase (a : Addr) : (s.setDstBase a).cfg = s.cfg := rfl
@[simp] theorem State.prog_setDstBase (a : Addr) : (s.setDstBase a).prog = s.prog := rfl
@[simp] theorem State.rng_setDstBase (a : Addr) : (s.setDstBase a).rng = s.rng := rfl
@[simp] theorem State.rngPos_setDstBase (a : Addr) : (s.setDstBase a).rngPos = s.rngPos := rfl
@[simp] theorem State.buf_setDstBase (a : Addr) : (s.setDstBase a).buf = s.buf := rfl
@[simp] theorem State.slot0_setDstBase (a : Addr) : (s.setDstBase a).slot0 = s.slot0 := rfl
@[simp] theorem State.slot1_setDstBase (a : Addr) : (s.setDstBase a).slot1 = s.slot1 := rfl
@[simp] theorem State.slot2_setDstBase (a : Addr) : (s.setDstBase a).slot2 = s.slot2 := rfl
@[simp] theorem State.slot3_setDstBase (a : Addr) : (s.setDstBase a).slot3 = s.slot3 := rfl
@[simp] theorem State.pc_setDstBase (a : Addr) : (s.setDstBase a).pc = s.pc := rfl
@[simp] theorem State.res_setDstBase (a : Addr) : (s.setDstBase a).res = s.res := rfl
@[simp] theorem State.srcBase_setDstBase (a : Addr) : (s.setDstBase a).srcBase = s.srcBase := rfl
@[simp] theorem State.dstBase_setDstBase (a : Addr) : (s.setDstBase a).dstBase = a := rfl
@[simp] theorem State.fault_setDstBase (a : Addr) : (s.setDstBase a).fault = s.fault := rfl
@[simp] theorem State.fpc_setDstBase (a : Addr) : (s.setDstBase a).fpc = s.fpc := rfl
@[simp] theorem State.slot_setDstBase (a : Addr) (g : Slot) : (s.setDstBase a).slot g = s.slot g := by cases g <;> rfl

end

section
variable (s : State)

@[simp] theorem State.cfg_setBuf (m : Memory) : (s.setBuf m).cfg = s.cfg := rfl
@[simp] theorem State.prog_setBuf (m : Memory) : (s.setBuf m).prog = s.prog := rfl
@[simp] theorem State.rng_setBuf (m : Memory) : (s.setBuf m).rng = s.rng := rfl
@[simp] theorem State.rngPos_setBuf (m : Memory) : (s.setBuf m).rngPos = s.rngPos := rfl
@[simp] theorem State.buf_setBuf (m : Memory) : (s.setBuf m).buf = m := rfl
@[simp] theorem State.slot0_setBuf (m : Memory) : (s.setBuf m).slot0 = s.slot0 := rfl
@[simp] theorem State.slot1_setBuf (m : Memory) : (s.setBuf m).slot1 = s.slot1 := rfl
@[simp] theorem State.slot2_setBuf (m : Memory) : (s.setBuf m).slot2 = s.slot2 := rfl
@[simp] theorem State.slot3_setBuf (m : Memory) : (s.setBuf m).slot3 = s.slot3 := rfl
@[simp] theorem State.pc_setBuf (m : Memory) : (s.setBuf m).pc = s.pc := rfl
@[simp] theorem State.res_setBuf (m : Memory) : (s.setBuf m).res = s.res := rfl
@[simp] theorem State.srcBase_setBuf (m : Memory) : (s.setBuf m).srcBase = s.srcBase := rfl
@[simp] theorem State.dstBase_setBuf (m : Memory) : (s.setBuf m).dstBase = s.dstBase := rfl
@[simp] theorem State.fault_setBuf (m : Memory) : (s.setBuf m).fault = s.fault := rfl
@[simp] theorem State.fpc_setBuf (m : Memory) : (s.setBuf m).fpc = s.fpc := rfl
@[simp] theorem State.slot_setBuf (m : Memory) (g : Slot) : (s.setBuf m).slot g = s.slot g := by cases g <;> rfl

end

section
variable (s : State)

@[simp] theorem State.cfg_setRngPos (n : Nat) : (s.setRngPos n).cfg = s.cfg := rfl
@[simp] theorem State.prog_setRngPos (n : Nat) : (s.setRngPos n).prog = s.prog := rfl
@[simp] theorem State.rng_setRngPos (n : Nat) : (s.setRngPos n).rng = s.rng := rfl
@[simp] theorem State.rngPos_setRngPos (n : Nat) : (s.setRngPos n).rngPos = n := rfl
@[simp] theorem State.buf_setRngPos (n : Nat) : (s.setRngPos n).buf = s.buf := rfl
@[simp] theorem State.slot0_setRngPos (n : Nat) : (s.setRngPos n).slot0 = s.slot0 := rfl
@[simp] theorem State.slot1_setRngPos (n : Nat) : (s.setRngPos n).slot1 = s.slot1 := rfl
@[simp] theorem State.slot2_setRngPos (n : Nat) : (s.setRngPos n).slot2 = s.slot2 := rfl
@[simp] theorem State.slot3_setRngPos (n : Nat) : (s.setRngPos n).slot3 = s.slot3 := rfl
@[simp] theorem State.pc_setRngPos (n : Nat) : (s.setRngPos n).pc = s.pc := rfl
@[simp] theorem State.res_setRngPos (n : Nat) : (s.setRngPos n).res = s.res := rfl
@[simp] theorem State.srcBase_setRngPos (n : Nat) : (s.setRngPos n).srcBase = s.srcBase := rfl
@[simp] theorem State.dstBase_setRngPos (n : Nat) : (s.setRngPos n).dstBase = s.dstBase := rfl
@[simp] theorem State.fault_setRngPos (n : Nat) : (s.setRngPos n).fault = s.fault := rfl
@[simp] theorem State.fpc_setRngPos (n : Nat) : (s.setRngPos n).fpc = s.fpc := rfl
@[simp] theorem State.slot_setRngPos (n : Nat) (g : Slot) : (s.setRngPos n).slot g = s.slot g := by cases g <;> rfl

end

section
variable (s : State)

@[simp] theorem State.cfg_advance : s.advance.cfg = s.cfg := rfl
@[simp] theorem State.prog_advance : s.advance.prog = s.prog := rfl
@[simp] theorem State.rng_advance : s.advance.rng = s.rng := rfl
@[simp] theorem State.rngPos_advance : s.advance.rngPos = s.rngPos := rfl
@[simp] theorem State.buf_advance : s.advance.buf = s.buf := rfl
@[simp] theorem State.slot0_advance : s.advance.slot0 = s.slot0 := rfl
@[simp] theorem State.slot1_advance : s.advance.slot1 = s.slot1 := rfl
@[simp] theorem State.slot2_advance : s.advance.slot2 = s.slot2 := rfl
@[simp] theorem State.slot3_advance : s.advance.slot3 = s.slot3 := rfl
@[simp] theorem State.pc_advance : s.advance.pc = s.pc + 1 := rfl
@[simp] theorem State.res_advance : s.advance.res = s.res := rfl
@[simp] theorem State.srcBase_advance : s.advance.srcBase = s.srcBase := rfl
@[simp] theorem State.dstBase_advance : s.advance.dstBase = s.dstBase := rfl
@[simp] theorem State.fault_advance : s.advance.fault = s.fault := rfl
@[simp] theorem State.fpc_advance : s.advance.fpc = s.fpc := rfl
@[simp] theorem State.slot_advance (g : Slot) : s.advance.slot g = s.slot g := by cases g <;> rfl

end

section
variable (s : State)

@[simp] theorem State.cfg_enterFault (c : Cause) : (s.enterFault c).cfg = s.cfg := rfl
@[simp] theorem State.prog_enterFault (c : Cause) : (s.enterFault c).prog = s.prog := rfl
@[simp] theorem State.rng_enterFault (c : Cause) : (s.enterFault c).rng = s.rng := rfl
@[simp] theorem State.rngPos_enterFault (c : Cause) : (s.enterFault c).rngPos = s.rngPos := rfl
@[simp] theorem State.buf_enterFault (c : Cause) : (s.enterFault c).buf = s.buf := rfl
@[simp] theorem State.slot0_enterFault (c : Cause) : (s.enterFault c).slot0 = s.slot0 := rfl
@[simp] theorem State.slot1_enterFault (c : Cause) : (s.enterFault c).slot1 = s.slot1 := rfl
@[simp] theorem State.slot2_enterFault (c : Cause) : (s.enterFault c).slot2 = s.slot2 := rfl
@[simp] theorem State.slot3_enterFault (c : Cause) : (s.enterFault c).slot3 = s.slot3 := rfl
@[simp] theorem State.pc_enterFault (c : Cause) : (s.enterFault c).pc = s.pc := rfl
@[simp] theorem State.res_enterFault (c : Cause) : (s.enterFault c).res = s.res := rfl
@[simp] theorem State.srcBase_enterFault (c : Cause) : (s.enterFault c).srcBase = s.srcBase := rfl
@[simp] theorem State.dstBase_enterFault (c : Cause) : (s.enterFault c).dstBase = s.dstBase := rfl
@[simp] theorem State.fault_enterFault (c : Cause) : (s.enterFault c).fault = causeCode c := rfl
@[simp] theorem State.fpc_enterFault (c : Cause) : (s.enterFault c).fpc = s.pc := rfl
@[simp] theorem State.slot_enterFault (c : Cause) (g : Slot) : (s.enterFault c).slot g = s.slot g := by cases g <;> rfl

end

section
variable (s : State)

@[simp] theorem State.cfg_resetEvent : s.resetEvent.cfg = s.cfg := rfl
@[simp] theorem State.prog_resetEvent : s.resetEvent.prog = s.prog := rfl
@[simp] theorem State.rng_resetEvent : s.resetEvent.rng = s.rng := rfl
@[simp] theorem State.rngPos_resetEvent : s.resetEvent.rngPos = s.rngPos := rfl
@[simp] theorem State.buf_resetEvent : s.resetEvent.buf = s.buf := rfl
@[simp] theorem State.slot0_resetEvent : s.resetEvent.slot0 = none := rfl
@[simp] theorem State.slot1_resetEvent : s.resetEvent.slot1 = none := rfl
@[simp] theorem State.slot2_resetEvent : s.resetEvent.slot2 = none := rfl
@[simp] theorem State.slot3_resetEvent : s.resetEvent.slot3 = none := rfl
@[simp] theorem State.pc_resetEvent : s.resetEvent.pc = 0 := rfl
@[simp] theorem State.res_resetEvent : s.resetEvent.res = false := rfl
@[simp] theorem State.srcBase_resetEvent : s.resetEvent.srcBase = 0 := rfl
@[simp] theorem State.dstBase_resetEvent : s.resetEvent.dstBase = 0 := rfl
@[simp] theorem State.fault_resetEvent : s.resetEvent.fault = 0 := rfl
@[simp] theorem State.fpc_resetEvent : s.resetEvent.fpc = 0 := rfl
@[simp] theorem State.slot_resetEvent (g : Slot) : s.resetEvent.slot g = none := by cases g <;> rfl

end

section
variable (s : State) (g : Slot) (x : Option Grid)

@[simp] theorem State.cfg_setSlot : (s.setSlot g x).cfg = s.cfg := by cases g <;> rfl
@[simp] theorem State.prog_setSlot : (s.setSlot g x).prog = s.prog := by cases g <;> rfl
@[simp] theorem State.rng_setSlot : (s.setSlot g x).rng = s.rng := by cases g <;> rfl
@[simp] theorem State.rngPos_setSlot : (s.setSlot g x).rngPos = s.rngPos := by cases g <;> rfl
@[simp] theorem State.buf_setSlot : (s.setSlot g x).buf = s.buf := by cases g <;> rfl
@[simp] theorem State.pc_setSlot : (s.setSlot g x).pc = s.pc := by cases g <;> rfl
@[simp] theorem State.res_setSlot : (s.setSlot g x).res = s.res := by cases g <;> rfl
@[simp] theorem State.srcBase_setSlot : (s.setSlot g x).srcBase = s.srcBase := by cases g <;> rfl
@[simp] theorem State.dstBase_setSlot : (s.setSlot g x).dstBase = s.dstBase := by cases g <;> rfl
@[simp] theorem State.fault_setSlot : (s.setSlot g x).fault = s.fault := by cases g <;> rfl
@[simp] theorem State.fpc_setSlot : (s.setSlot g x).fpc = s.fpc := by cases g <;> rfl

/-- Writing slot `g` is read back at `g` and nowhere else (R23). -/
theorem State.slot_setSlot (h : Slot) : (s.setSlot g x).slot h = if h = g then x else s.slot h := by
  cases g <;> cases h <;> rfl

@[simp] theorem State.slot_setSlot_self : (s.setSlot g x).slot g = x := by cases g <;> rfl

theorem State.slot_setSlot_of_ne (h : Slot) (hne : h ≠ g) : (s.setSlot g x).slot h = s.slot h := by
  rw [State.slot_setSlot, if_neg hne]

end

/-- Two states with the same fields, the slots read through `State.slot`, are the same state. -/
theorem State.ext_slots (s t : State) (hcfg : s.cfg = t.cfg) (hprog : s.prog = t.prog) (hrng : s.rng = t.rng)
    (hpos : s.rngPos = t.rngPos) (hbuf : s.buf = t.buf) (hslot : ∀ g, s.slot g = t.slot g) (hpc : s.pc = t.pc)
    (hres : s.res = t.res) (hsrc : s.srcBase = t.srcBase) (hdst : s.dstBase = t.dstBase)
    (hfault : s.fault = t.fault) (hfpc : s.fpc = t.fpc) : s = t := by
  have h0 : s.slot0 = t.slot0 := hslot .g0
  have h1 : s.slot1 = t.slot1 := hslot .g1
  have h2 : s.slot2 = t.slot2 := hslot .g2
  have h3 : s.slot3 = t.slot3 := hslot .g3
  cases s
  cases t
  simp_all

/-- Reset leaves the state after reset as it is. -/
theorem State.reset_resetEvent : State.reset.resetEvent = State.reset := rfl

end Sys2Proof.Machine
end

