-- ==== Sys2Proof/Laws/Memory.lean ====
section
/-!
SUPPORT. Laws of the buffer memory: reading after a write, the canonical form and the bounds every write keeps, and
that canonical memories with the same written bytes are equal.
-/

namespace Sys2Proof.Machine

@[simp] theorem bufLookup_nil (a : Nat) : bufLookup [] a = none := rfl

theorem bufLookup_cons (b : Nat) (v : Byte) (m : Memory) (a : Nat) :
    bufLookup ((b, v) :: m) a = if a = b then some v else bufLookup m a := rfl

theorem bufLookup_append (m n : Memory) (a : Nat) :
    bufLookup (m ++ n) a = (bufLookup m a).or (bufLookup n a) := by
  induction m with
  | nil => simp
  | cons c m ih =>
    obtain ⟨b, v⟩ := c
    simp only [List.cons_append, bufLookup_cons, ih]
    split <;> simp

/-- An address with no cell in memory has no byte. -/
theorem bufLookup_eq_none {m : Memory} {a : Nat} (h : ∀ c ∈ m, c.1 ≠ a) : bufLookup m a = none := by
  induction m with
  | nil => rfl
  | cons c m ih =>
    obtain ⟨b, v⟩ := c
    have hb : b ≠ a := h (b, v) (by simp)
    rw [bufLookup_cons, if_neg (fun e => hb e.symm)]
    exact ih fun c hc => h c (by simp [hc])

/-- Keeping the cells whose address satisfies `p` keeps what an address with `p` reads as. -/
theorem bufLookup_filter (p : Nat → Bool) (m : Memory) (a : Nat) (ha : p a = true) :
    bufLookup (m.filter (fun c => p c.1)) a = bufLookup m a := by
  induction m with
  | nil => rfl
  | cons c m ih =>
    obtain ⟨b, v⟩ := c
    by_cases hb : p b = true
    · simp [hb, bufLookup_cons, ih]
    · have hne : a ≠ b := fun e => hb (e ▸ ha)
      simp [hb, bufLookup_cons, ih, hne]

theorem mem_cellsFrom {base : Nat} {bytes : List Byte} {c : Host.Cell} (hc : c ∈ cellsFrom base bytes) :
    base ≤ c.1 ∧ c.1 < base + bytes.length := by
  induction bytes generalizing base with
  | nil => cases hc
  | cons v vs ih =>
    rcases List.mem_cons.1 hc with rfl | h
    · simp
    · have := ih h
      simp only [List.length_cons]
      omega

theorem bufLookup_cellsFrom (base : Nat) (bytes : List Byte) (k : Nat) (hk : k < bytes.length) :
    bufLookup (cellsFrom base bytes) (base + k) = some bytes[k] := by
  induction bytes generalizing base k with
  | nil => cases hk
  | cons v vs ih =>
    cases k with
    | zero => simp [cellsFrom, bufLookup_cons]
    | succ k =>
      have hlt : k < vs.length := by simpa using hk
      have h := ih (base + 1) k hlt
      rw [show base + 1 + k = base + (k + 1) by omega] at h
      simp [cellsFrom, bufLookup_cons, h]

/-- Inside the written range, the byte written at that offset. -/
theorem bufLookup_bufWrite_inside (m : Memory) (base : Nat) (bytes : List Byte) (k : Nat) (hk : k < bytes.length) :
    bufLookup (bufWrite m base bytes) (base + k) = some bytes[k] := by
  have hlow : bufLookup (m.filter fun c => decide (c.1 < base)) (base + k) = none := by
    apply bufLookup_eq_none
    intro c hc
    have := (List.mem_filter.1 hc).2
    simp only [decide_eq_true_eq] at this
    omega
  simp [bufWrite, bufLookup_append, hlow, bufLookup_cellsFrom base bytes k hk]

/-- Outside the written range, what was there before. -/
theorem bufLookup_bufWrite_outside (m : Memory) (base : Nat) (bytes : List Byte) (a : Nat)
    (ha : a < base ∨ base + bytes.length ≤ a) : bufLookup (bufWrite m base bytes) a = bufLookup m a := by
  have hmid : bufLookup (cellsFrom base bytes) a = none := by
    apply bufLookup_eq_none
    intro c hc
    have := mem_cellsFrom hc
    omega
  rcases ha with hlt | hge
  · have hlow : bufLookup (m.filter fun c => decide (c.1 < base)) a = bufLookup m a :=
      bufLookup_filter (fun b => decide (b < base)) m a (by simpa using hlt)
    have hhigh : bufLookup (m.filter fun c => decide (base + bytes.length ≤ c.1)) a = none := by
      apply bufLookup_eq_none
      intro c hc
      have := (List.mem_filter.1 hc).2
      simp only [decide_eq_true_eq] at this
      omega
    simp [bufWrite, bufLookup_append, hlow, hmid, hhigh]
  · have hlow : bufLookup (m.filter fun c => decide (c.1 < base)) a = none := by
      apply bufLookup_eq_none
      intro c hc
      have := (List.mem_filter.1 hc).2
      simp only [decide_eq_true_eq] at this
      omega
    have hhigh : bufLookup (m.filter fun c => decide (base + bytes.length ≤ c.1)) a = bufLookup m a :=
      bufLookup_filter (fun b => decide (base + bytes.length ≤ b)) m a (by simpa using hge)
    simp [bufWrite, bufLookup_append, hlow, hmid, hhigh]

theorem bufRead_bufWrite_inside (m : Memory) (base : Nat) (bytes : List Byte) (k : Nat) (hk : k < bytes.length) :
    bufRead (bufWrite m base bytes) (base + k) = bytes[k] := by
  simp [bufRead, bufLookup_bufWrite_inside m base bytes k hk]

theorem bufRead_bufWrite_outside (m : Memory) (base : Nat) (bytes : List Byte) (a : Nat)
    (ha : a < base ∨ base + bytes.length ≤ a) : bufRead (bufWrite m base bytes) a = bufRead m a := by
  simp [bufRead, bufLookup_bufWrite_outside m base bytes a ha]

theorem cellsFrom_wf (base : Nat) (bytes : List Byte) : Memory.wf (cellsFrom base bytes) := by
  induction bytes generalizing base with
  | nil => exact List.Pairwise.nil
  | cons v vs ih =>
    refine List.Pairwise.cons ?_ (ih (base + 1))
    intro c hc
    have := mem_cellsFrom hc
    simp only
    omega

theorem Memory.wf_nil : Memory.wf [] := List.Pairwise.nil

/-- Every write keeps the canonical form of `BUF`. -/
theorem bufWrite_wf {m : Memory} (hm : Memory.wf m) (base : Nat) (bytes : List Byte) :
    Memory.wf (bufWrite m base bytes) := by
  have hlow : ∀ c ∈ m.filter (fun c => decide (c.1 < base)), c.1 < base := by
    intro c hc
    simpa using (List.mem_filter.1 hc).2
  have hhigh : ∀ c ∈ m.filter (fun c => decide (base + bytes.length ≤ c.1)), base + bytes.length ≤ c.1 := by
    intro c hc
    simpa using (List.mem_filter.1 hc).2
  refine List.pairwise_append.2 ⟨List.pairwise_append.2 ⟨hm.filter _, cellsFrom_wf base bytes, ?_⟩, hm.filter _, ?_⟩
  · intro c hc d hd
    have := hlow c hc
    have := mem_cellsFrom hd
    omega
  · intro c hc d hd
    have h2 := hhigh d hd
    rcases List.mem_append.1 hc with h | h
    · have := hlow c h
      omega
    · have := mem_cellsFrom h
      omega

/-- A write inside the first `n` addresses leaves every cell there. -/
theorem bufWrite_bound {m : Memory} {n : Nat} (hm : ∀ c ∈ m, c.1 < n) {base : Nat} {bytes : List Byte}
    (h : base + bytes.length ≤ n) : ∀ c ∈ bufWrite m base bytes, c.1 < n := by
  intro c hc
  rcases List.mem_append.1 hc with hc | hc
  · rcases List.mem_append.1 hc with hc | hc
    · exact hm c (List.mem_filter.1 hc).1
    · have := mem_cellsFrom hc
      omega
  · exact hm c (List.mem_filter.1 hc).1

theorem bufLookup_of_lt {m : Memory} {a : Nat} (h : ∀ c ∈ m, a < c.1) : bufLookup m a = none :=
  bufLookup_eq_none fun c hc => Nat.ne_of_gt (h c hc)

/-- Equal memories are equal data: two canonical memories with the same written bytes are the same list. -/
theorem Memory.ext_lookup {m n : Memory} (hm : Memory.wf m) (hn : Memory.wf n)
    (h : ∀ a, bufLookup m a = bufLookup n a) : m = n := by
  induction m generalizing n with
  | nil =>
    cases n with
    | nil => rfl
    | cons d n =>
      obtain ⟨b, v⟩ := d
      have := h b
      simp [bufLookup_cons] at this
  | cons c m ih =>
    obtain ⟨a, u⟩ := c
    have hmlt := (List.pairwise_cons.1 hm).1
    cases n with
    | nil =>
      have := h a
      simp [bufLookup_cons] at this
    | cons d n =>
      obtain ⟨b, v⟩ := d
      have hnlt := (List.pairwise_cons.1 hn).1
      have hab : a = b := by
        rcases Nat.lt_trichotomy a b with hlt | he | hlt
        · have h1 := h a
          have h2 : bufLookup n a = none := bufLookup_of_lt fun c hc => Nat.lt_trans hlt (hnlt c hc)
          simp [bufLookup_cons, Nat.ne_of_lt hlt, h2] at h1
        · exact he
        · have h1 := h b
          have h2 : bufLookup m b = none := bufLookup_of_lt fun c hc => Nat.lt_trans hlt (hmlt c hc)
          simp [bufLookup_cons, Nat.ne_of_lt hlt, h2] at h1
      subst hab
      have huv : u = v := by
        have h1 := h a
        simpa [bufLookup_cons] using h1
      subst huv
      have htail : m = n := by
        apply ih (List.pairwise_cons.1 hm).2 (List.pairwise_cons.1 hn).2
        intro x
        by_cases hx : x = a
        · subst hx
          rw [bufLookup_of_lt fun c hc => hmlt c hc, bufLookup_of_lt fun c hc => hnlt c hc]
        · have h1 := h x
          simpa [bufLookup_cons, hx] using h1
      rw [htail]

@[simp] theorem memRead_setSlot (s : State) (g : Slot) (x : Option Grid) (a : Nat) :
    memRead (s.setSlot g x) a = memRead s a := by
  simp [memRead]

@[simp] theorem memRead_advance (s : State) (a : Nat) : memRead s.advance a = memRead s a := rfl

@[simp] theorem memRead_setRngPos (s : State) (n a : Nat) : memRead (s.setRngPos n) a = memRead s a := rfl

@[simp] theorem memRead_enterFault (s : State) (c : Cause) (a : Nat) : memRead (s.enterFault c) a = memRead s a := rfl

/-- `MemWrite` sets one byte (R51). -/
theorem memRead_memWrite (s : State) (a : Nat) (v : Byte) (b : Nat) :
    memRead (memWrite s a v) b = if b = a then v else memRead s b := by
  simp only [memRead, memWrite, State.buf_setBuf]
  by_cases h : b = a
  · subst h
    simpa using bufRead_bufWrite_inside s.buf b [v] 0 (by simp)
  · rw [if_neg h]
    apply bufRead_bufWrite_outside
    simp only [List.length_singleton]
    omega

end Sys2Proof.Machine
end

