-- ==== Sys2Proof/Laws/Meanings.lean ====
section
/-!
SUPPORT. What each shared operation and each meaning can answer, said once; later proofs cite these instead of
unfolding the meanings.
-/

namespace Sys2Proof.Machine

@[simp] theorem raise_eq_next (c : Cause) (s t : State) : raise c s = .next t ↔ s.enterFault c = t := by
  simp [raise]

@[simp] theorem complete_eq_next (s t : State) : complete s = .next t ↔ s.advance = t := by
  simp [complete]

/-- No cause has code 0 (R171). -/
theorem causeCode_ne_zero (c : Cause) : causeCode c ≠ 0 := by cases c <;> decide

/-- After a fault is taken the core is halted (R172). -/
theorem enterFault_fault_ne_zero (s : State) (c : Cause) : (s.enterFault c).fault ≠ 0 := causeCode_ne_zero c

theorem causeCode_le_eight (c : Cause) : (causeCode c).toNat ≤ 8 := by cases c <;> decide

theorem causeCode_injective {c d : Cause} (h : causeCode c = causeCode d) : c = d := by
  revert h
  cases c <;> cases d <;> decide

/-- What INV answers (R102). -/
theorem exec_inv_eq (b : Bit) (s : State) : exec (.inv b) s = .next (s.setRes (inverse b)).advance := rfl

/-- What SETTILE can answer (R103). -/
theorem exec_settile_cases (g : Slot) (row col : Nat) (l f : Bit) (s : State) :
    (s.slot g = none ∧ exec (.settile g row col l f) s = .next (s.enterFault .slotInvalid)) ∨
    (∃ x, s.slot g = some x ∧ ¬TileFits x row col ∧
      exec (.settile g row col l f) s = .next (s.enterFault .tileRange)) ∨
    (∃ x, s.slot g = some x ∧ TileFits x row col ∧
      exec (.settile g row col l f) s = .next (s.setSlot g (some (setTile x row col l f))).advance) := by
  simp only [exec, execSettile]
  split
  · next h => exact .inl ⟨h, rfl⟩
  · next x h =>
    split
    · next hfit => exact .inr (.inr ⟨x, h, hfit, rfl⟩)
    · next hfit => exact .inr (.inl ⟨x, h, hfit, rfl⟩)

/-- What RANDSHARE can answer (R110, R112). -/
theorem exec_randshare_cases (gd : Slot) (w h : Nat) (s : State) :
    ((w > s.cfg.maxW ∨ h > s.cfg.maxH) ∧ exec (.randshare gd w h) s = .next (s.enterFault .dimRange)) ∨
    (¬(w > s.cfg.maxW ∨ h > s.cfg.maxH) ∧ (w % 2 = 1 ∨ h % 2 = 1) ∧
      exec (.randshare gd w h) s = .next (s.enterFault .oddDimension)) ∨
    (¬(w > s.cfg.maxW ∨ h > s.cfg.maxH) ∧ ¬(w % 2 = 1 ∨ h % 2 = 1) ∧
      rngShort s.rng s.rngPos (tileCount w h) = true ∧
      exec (.randshare gd w h) s =
        .next (((s.setRngPos (rngEnd s.rng s.rngPos)).setSlot gd none).enterFault .rngExhausted)) ∨
    (¬(w > s.cfg.maxW ∨ h > s.cfg.maxH) ∧ ¬(w % 2 = 1 ∨ h % 2 = 1) ∧
      rngShort s.rng s.rngPos (tileCount w h) = false ∧
      exec (.randshare gd w h) s =
        .next ((s.setRngPos (s.rngPos + tileCount w h)).setSlot gd
          (some (shareGrid s.rng s.rngPos w h))).advance) := by
  simp only [exec, execRandshare]
  split
  · next h1 => exact .inl ⟨h1, rfl⟩
  · next h1 =>
    split
    · next h2 => exact .inr (.inl ⟨h1, h2, rfl⟩)
    · next h2 =>
      split
      · next h3 => exact .inr (.inr (.inl ⟨h1, h2, h3, rfl⟩))
      · next h3 => exact .inr (.inr (.inr ⟨h1, h2, by simpa using h3, rfl⟩))

/-- What ENCODE can answer (R120). -/
theorem exec_encode_cases (gd gs gr : Slot) (s : State) :
    ((s.slot gs = none ∨ s.slot gr = none) ∧ exec (.encode gd gs gr) s = .next (s.enterFault .slotInvalid)) ∨
    (∃ S R, s.slot gs = some S ∧ s.slot gr = some R ∧ (R.width ≠ 2 * S.width ∨ R.height ≠ 2 * S.height) ∧
      exec (.encode gd gs gr) s = .next (s.enterFault .dimMismatch)) ∨
    (∃ S R, s.slot gs = some S ∧ s.slot gr = some R ∧ R.width = 2 * S.width ∧ R.height = 2 * S.height ∧
      exec (.encode gd gs gr) s = .next (s.setSlot gd (some (cipherGrid S R))).advance) := by
  simp only [exec, execEncode]
  split
  · next S R hS hR =>
    split
    · next h => exact .inr (.inl ⟨S, R, hS, hR, h, rfl⟩)
    · next h => exact .inr (.inr ⟨S, R, hS, hR, by omega, by omega, rfl⟩)
  · next h =>
    refine .inl ⟨?_, rfl⟩
    cases hS : s.slot gs with
    | none => exact .inl rfl
    | some S =>
      cases hR : s.slot gr with
      | none => exact .inr rfl
      | some R => exact absurd hR (h S R hS)

/-- What RECOVER can answer (R130). -/
theorem exec_recover_cases (gd ga gb : Slot) (s : State) :
    ((s.slot ga = none ∨ s.slot gb = none) ∧ exec (.recover gd ga gb) s = .next (s.enterFault .slotInvalid)) ∨
    (∃ A B, s.slot ga = some A ∧ s.slot gb = some B ∧ (A.width ≠ B.width ∨ A.height ≠ B.height) ∧
      exec (.recover gd ga gb) s = .next (s.enterFault .dimMismatch)) ∨
    (∃ A B, s.slot ga = some A ∧ s.slot gb = some B ∧ A.width = B.width ∧ A.height = B.height ∧
      exec (.recover gd ga gb) s = .next (s.setSlot gd (some (xorGrid A B))).advance) := by
  simp only [exec, execRecover]
  split
  · next A B hA hB =>
    split
    · next h => exact .inr (.inl ⟨A, B, hA, hB, h, rfl⟩)
    · next h => exact .inr (.inr ⟨A, B, hA, hB, by omega, by omega, rfl⟩)
  · next h =>
    refine .inl ⟨?_, rfl⟩
    cases hA : s.slot ga with
    | none => exact .inl rfl
    | some A =>
      cases hB : s.slot gb with
      | none => exact .inr rfl
      | some B => exact absurd hB (h A B hA)

/-- What SETSRC answers (R140). -/
theorem exec_setsrc_eq (a : Addr) (s : State) : exec (.setsrc a) s = .next (s.setSrcBase a).advance := rfl

/-- What SETDST answers (R141). -/
theorem exec_setdst_eq (a : Addr) (s : State) : exec (.setdst a) s = .next (s.setDstBase a).advance := rfl

/-- What TOBG can answer (R142). -/
theorem exec_tobg_cases (gd : Slot) (w h : Nat) (s : State) :
    ((w > s.cfg.maxW ∨ h > s.cfg.maxH) ∧ exec (.tobg gd w h) s = .next (s.enterFault .dimRange)) ∨
    (¬(w > s.cfg.maxW ∨ h > s.cfg.maxH) ∧ s.cfg.bufBytes < s.srcBase.toNat + w * h ∧
      exec (.tobg gd w h) s = .next (s.enterFault .addrRange)) ∨
    (¬(w > s.cfg.maxW ∨ h > s.cfg.maxH) ∧ s.srcBase.toNat + w * h ≤ s.cfg.bufBytes ∧
      exec (.tobg gd w h) s = .next (s.setSlot gd (some (bufferGrid s w h))).advance) := by
  simp only [exec, execTobg]
  split
  · next h1 => exact .inl ⟨h1, rfl⟩
  · next h1 =>
    split
    · next h2 => exact .inr (.inl ⟨h1, h2, rfl⟩)
    · next h2 => exact .inr (.inr ⟨h1, Nat.le_of_not_lt h2, rfl⟩)

/-- What FRBG can answer (R143). -/
theorem exec_frbg_cases (gs : Slot) (s : State) :
    (s.slot gs = none ∧ exec (.frbg gs) s = .next (s.enterFault .slotInvalid)) ∨
    (∃ x, s.slot gs = some x ∧ s.cfg.bufBytes < s.dstBase.toNat + 3 * x.width * x.height ∧
      exec (.frbg gs) s = .next (s.enterFault .addrRange)) ∨
    (∃ x, s.slot gs = some x ∧ s.dstBase.toNat + 3 * x.width * x.height ≤ s.cfg.bufBytes ∧
      exec (.frbg gs) s = .next (s.setBuf (bufWrite s.buf s.dstBase.toNat (rgbBytes x))).advance) := by
  simp only [exec, execFrbg]
  split
  · next h => exact .inl ⟨h, rfl⟩
  · next x h =>
    split
    · next h2 => exact .inr (.inl ⟨x, h, h2, rfl⟩)
    · next h2 => exact .inr (.inr ⟨x, h, Nat.le_of_not_lt h2, rfl⟩)

/-- What GNEW can answer (R160). -/
theorem exec_gnew_cases (gd : Slot) (w h : Nat) (s : State) :
    ((w > s.cfg.maxW ∨ h > s.cfg.maxH) ∧ exec (.gnew gd w h) s = .next (s.enterFault .dimRange)) ∨
    (¬(w > s.cfg.maxW ∨ h > s.cfg.maxH) ∧
      exec (.gnew gd w h) s = .next (s.setSlot gd (some (blankGrid w h))).advance) := by
  simp only [exec, execGnew]
  split
  · next h1 => exact .inl ⟨h1, rfl⟩
  · next h1 => exact .inr ⟨h1, rfl⟩

/-- Indexing a concatenation of pieces of one length. -/
theorem getElem?_flatMap_range {α : Type} (m n : Nat) (f : Nat → List α) (hf : ∀ i < m, (f i).length = n)
    (i j : Nat) (hi : i < m) (hj : j < n) : ((List.range m).flatMap f)[i * n + j]? = (f i)[j]? := by
  induction m generalizing i with
  | zero => exact absurd hi (Nat.not_lt_zero i)
  | succ m ih =>
    have hlen : ((List.range m).flatMap f).length = m * n := by
      rw [List.length_flatMap, List.map_congr_left (g := fun _ => n)
        (fun k hk => hf k (Nat.lt_succ_of_lt (List.mem_range.1 hk)))]
      simp
    rw [List.range_succ, List.flatMap_append]
    rcases Nat.lt_or_ge i m with hlt | hge
    · have hin : i * n + j < m * n := by
        calc i * n + j < i * n + n := by omega
          _ = (i + 1) * n := by rw [Nat.add_mul, Nat.one_mul]
          _ ≤ m * n := Nat.mul_le_mul_right n hlt
      rw [List.getElem?_append_left (by omega), ih (fun k hk => hf k (by omega)) i hlt]
    · have him : i = m := by omega
      subst him
      rw [List.getElem?_append_right (by omega), hlen]
      simp

theorem length_flatMap_range {α : Type} (m n : Nat) (f : Nat → List α) (hf : ∀ i < m, (f i).length = n) :
    ((List.range m).flatMap f).length = m * n := by
  rw [List.length_flatMap, List.map_congr_left (g := fun _ => n) (fun k hk => hf k (List.mem_range.1 hk))]
  simp

/-- One row of the RGB buffer has three bytes for each pixel. -/
theorem rgbRow_length (x : Grid) (row : Nat) :
    ((List.range x.width).flatMap fun col =>
      (List.range 3).map fun _ => intensityOfBit (x.cell row col)).length = x.width * 3 :=
  length_flatMap_range _ _ _ (by simp)

/-- The RGB buffer of a grid has `3 × W × H` bytes (R144). -/
theorem rgbBytes_length (x : Grid) : (rgbBytes x).length = 3 * x.width * x.height := by
  rw [rgbBytes, length_flatMap_range _ (x.width * 3) _ (fun row _ => rgbRow_length x row)]
  ring

/-- The byte of channel `ch` of pixel (col, row) stands at offset `3 × (row × W + col) + ch` (R144). -/
theorem rgbBytes_getElem? (x : Grid) (row col ch : Nat) (hr : row < x.height) (hc : col < x.width) (hch : ch < 3) :
    (rgbBytes x)[3 * (row * x.width + col) + ch]? = some (intensityOfBit (x.cell row col)) := by
  have hin : col * 3 + ch < x.width * 3 := by omega
  rw [show 3 * (row * x.width + col) + ch = row * (x.width * 3) + (col * 3 + ch) by ring, rgbBytes,
    getElem?_flatMap_range _ _ _ (fun row _ => rgbRow_length x row) row _ hr hin,
    getElem?_flatMap_range _ 3 _ (by simp) col ch hc hch,
    List.getElem?_map, List.getElem?_range hch, Option.map_some]

/-- What the fetch can find (R26). -/
theorem fetch_cases (s : State) :
    (s.fault ≠ 0 ∧ fetch s = .stopped .halted) ∨
    (s.fault = 0 ∧ 4294967296 ≤ s.prog.length ∧ fetch s = .notAdmitted .progNotAdmitted) ∨
    (s.fault = 0 ∧ s.prog.length < 4294967296 ∧ ∃ w, s.prog[s.pc.toNat]? = some w ∧ fetch s = .command w) ∨
    (s.fault = 0 ∧ s.pc.toNat = s.prog.length ∧ fetch s = .stopped .runEnded) ∨
    (s.fault = 0 ∧ s.prog.length < s.pc.toNat ∧ fetch s = .stopped .pcPastEnd) := by
  unfold fetch
  split
  · next h => exact .inl ⟨h, rfl⟩
  · next h =>
    have hf : s.fault = 0 := by simpa using h
    split
    · next hl => exact .inr (.inl ⟨hf, hl, rfl⟩)
    · next hl =>
      split
      · next w hw => exact .inr (.inr (.inl ⟨hf, by omega, w, hw, rfl⟩))
      · next hw =>
        have hge : s.prog.length ≤ s.pc.toNat := List.getElem?_eq_none_iff.1 hw
        split
        · next he => exact .inr (.inr (.inr (.inl ⟨hf, he, rfl⟩)))
        · next he => exact .inr (.inr (.inr (.inr ⟨hf, by omega, rfl⟩)))

theorem fetch_of_halted {s : State} (h : s.fault ≠ 0) : fetch s = .stopped .halted := if_pos h

theorem fetch_of_command {s : State} {w : Word} (hf : s.fault = 0) (hl : s.prog.length < 4294967296)
    (hw : s.prog[s.pc.toNat]? = some w) : fetch s = .command w := by
  rw [fetch, if_neg (not_not_intro hf), if_neg (Nat.not_le_of_lt hl), hw]

theorem fetch_of_end {s : State} (hf : s.fault = 0) (hl : s.prog.length < 4294967296)
    (he : s.pc.toNat = s.prog.length) : fetch s = .stopped .runEnded := by
  rw [fetch, if_neg (not_not_intro hf), if_neg (Nat.not_le_of_lt hl),
    List.getElem?_eq_none_iff.2 (Nat.le_of_eq he.symm)]
  exact if_pos he

/-- A step that gives a next state ran the command at `pc`, or took the fault of an illegal word there (R26). -/
theorem step_cases {s t : State} (h : step s = .next t) :
    s.fault = 0 ∧ s.prog.length < 4294967296 ∧ ∃ w, s.prog[s.pc.toNat]? = some w ∧
      ((∃ i, decode w = .command i ∧ exec i s = .next t) ∨
        (∃ e, decode w = .illegal e ∧ t = s.enterFault .illegalCommand)) := by
  unfold step at h
  rcases fetch_cases s with ⟨-, e⟩ | ⟨-, -, e⟩ | ⟨hf, hl, w, hw, e⟩ | ⟨-, -, e⟩ | ⟨-, -, e⟩ <;> rw [e] at h
  · cases h
  · cases h
  · refine ⟨hf, hl, w, hw, ?_⟩
    simp only at h
    split at h
    · next e he => exact .inr ⟨e, he, ((raise_eq_next _ _ _).1 h).symm⟩
    · next i hi => exact .inl ⟨i, hi, h⟩
  · cases h
  · cases h

end Sys2Proof.Machine
end

