-- ==== Sys2Proof/Laws/PerInstr.lean ====
section
/-!
SUPPORT. Statements for all commands, made one constructor at a time. The family `EncodingFits`: the operand fields of a
well-formed command stay below the opcode field, so no field runs into another and the word has 32 bits (R70, R71).
-/

namespace Sys2Proof.Laws.EncodingFits

/-- The operand bits of a well-formed command lie below bit 28, and its opcode is one of 1 to 9. -/
def Statement (i : Instr) : Prop :=
  i.wellFormed = true → operandBits i < 2 ^ 28 ∧ 1 ≤ opcode i ∧ opcode i ≤ 9

theorem inv (b : Bit) : Statement (.inv b) := by
  intro _
  have := bitNum_lt b
  simp only [operandBits, opcode]
  omega

theorem settile (g : Slot) (row col : Nat) (lead foll : Bit) : Statement (.settile g row col lead foll) := by
  intro h
  simp only [Instr.wellFormed, Bool.and_eq_true, fitsTen_iff] at h
  have := slotNum_lt g
  have := bitNum_lt lead
  have := bitNum_lt foll
  simp only [operandBits, opcode]
  omega

theorem randshare (gd : Slot) (width height : Nat) : Statement (.randshare gd width height) := by
  intro h
  simp only [Instr.wellFormed, Bool.and_eq_true, fitsTen_iff] at h
  have := slotNum_lt gd
  simp only [operandBits, opcode]
  omega

theorem encode (gd gs gr : Slot) : Statement (.encode gd gs gr) := by
  intro _
  have := slotNum_lt gd
  have := slotNum_lt gs
  have := slotNum_lt gr
  simp only [operandBits, opcode]
  omega

theorem recover (gd ga gb : Slot) : Statement (.recover gd ga gb) := by
  intro _
  have := slotNum_lt gd
  have := slotNum_lt ga
  have := slotNum_lt gb
  simp only [operandBits, opcode]
  omega

theorem tobg (gd : Slot) (width height : Nat) : Statement (.tobg gd width height) := by
  intro h
  simp only [Instr.wellFormed, Bool.and_eq_true, fitsTen_iff] at h
  have := slotNum_lt gd
  simp only [operandBits, opcode]
  omega

theorem frbg (gs : Slot) : Statement (.frbg gs) := by
  intro _
  have := slotNum_lt gs
  simp only [operandBits, opcode]
  omega

theorem setsrc (addr : Addr) : Statement (.setsrc addr) := by
  intro _
  have := addr.isLt
  simp only [operandBits, opcode]
  omega

theorem setdst (addr : Addr) : Statement (.setdst addr) := by
  intro _
  have := addr.isLt
  simp only [operandBits, opcode]
  omega

theorem gnew (gd : Slot) (width height : Nat) : Statement (.gnew gd width height) := by
  intro h
  simp only [Instr.wellFormed, Bool.and_eq_true, fitsTen_iff] at h
  have := slotNum_lt gd
  simp only [operandBits, opcode]
  omega

end Sys2Proof.Laws.EncodingFits
end

