-- ==== Sys2Proof/Machine/Assembler.lean ====
section
/-!
DEFINITION. The assembler of R86 and the two pseudo-instructions of R88, on lines given as lists of characters. It is
software beside the block; no step uses it.
-/

namespace Sys2Proof.Machine

/-- Why a line is refused (R86). -/
inductive AsmError where
  | unknownMnemonic
  | badOperands
  | operandDoesNotFit
deriving DecidableEq, Repr

/-- The value of a digit in the given base, capitals or small letters. -/
def digitValue (base : Nat) (c : Char) : Option Nat :=
  let v :=
    if '0' ≤ c ∧ c ≤ '9' then c.toNat - 48
    else if 'a' ≤ c ∧ c ≤ 'f' then c.toNat - 87
    else if 'A' ≤ c ∧ c ≤ 'F' then c.toNat - 55
    else 16
  if v < base then some v else none

/-- The number a non-empty list of digits writes. -/
def readDigits (base : Nat) : Nat → List Char → Option Nat
  | acc, [] => some acc
  | acc, c :: cs => (digitValue base c).bind fun d => readDigits base (acc * base + d) cs

/-- An integer operand (R86): "decimal or `0x` hexadecimal". -/
def readInt : List Char → Option Nat
  | '0' :: 'x' :: c :: cs => readDigits 16 0 (c :: cs)
  | c :: cs => readDigits 10 0 (c :: cs)
  | [] => none

/-- A slot operand (R86): G0, G1, G2 or G3. -/
def readSlot (cs : List Char) : Option Slot :=
  if cs = ['G', '0'] then some .g0
  else if cs = ['G', '1'] then some .g1
  else if cs = ['G', '2'] then some .g2
  else if cs = ['G', '3'] then some .g3
  else none

/-- A Bit operand (R86): 0 or 1. -/
def readBit (cs : List Char) : Option Bit :=
  (readInt cs).bind fun n => if n = 0 then some false else if n = 1 then some true else none

/-- An address operand (R86): at most `0xFFFFFF`. -/
def readAddr (cs : List Char) : Option Addr :=
  (readInt cs).bind fun n => if n < 16777216 then some (BitVec.ofNat 24 n) else none

/-- The line without the spaces at its two ends. -/
def trim (cs : List Char) : List Char :=
  ((cs.dropWhile (fun c => c = ' ')).reverse.dropWhile (fun c => c = ' ')).reverse

/-- The pieces of a line between commas. -/
def splitCommas : List Char → List (List Char)
  | [] => [[]]
  | c :: cs =>
    if c = ',' then [] :: splitCommas cs
    else
      match splitCommas cs with
      | [] => [[c]]
      | p :: ps => (c :: p) :: ps

/-- The operands of a line, without spaces around them. -/
def operandsOf (cs : List Char) : List (List Char) :=
  if trim cs = [] then [] else (splitCommas cs).map trim

/-- `ENCRYPT src, w, h, dst_share, dst_cipher` (R88). -/
def encryptFlow (src : Addr) (w h : Nat) (dstShare dstCipher : Addr) : List Instr :=
  [.setsrc src, .tobg .g0 w h, .randshare .g1 (2 * w) (2 * h), .encode .g2 .g0 .g1, .setdst dstShare, .frbg .g1,
    .setdst dstCipher, .frbg .g2]

/-- `DECRYPT src_a, src_b, w2, h2, dst` (R88). -/
def decryptFlow (srcA srcB : Addr) (w2 h2 : Nat) (dst : Addr) : List Instr :=
  [.setsrc srcA, .tobg .g0 w2 h2, .setsrc srcB, .tobg .g1 w2 h2, .recover .g2 .g0 .g1, .setdst dst, .frbg .g2]

/-- The commands, if the operands could be read and every one fits its field (R86, R88). -/
def fitting (is : Option (List Instr)) : Except AsmError (List Instr) :=
  match is with
  | none => .error .badOperands
  | some l => if l.all Instr.wellFormed then .ok l else .error .operandDoesNotFit

/-- Three operands of format D: a slot, a width, a height. -/
def readDims (mk : Slot → Nat → Nat → Instr) : List (List Char) → Option (List Instr)
  | [g, w, h] => do some [mk (← readSlot g) (← readInt w) (← readInt h)]
  | _ => none

/-- Three operands of format G3: three slots. -/
def readThree (mk : Slot → Slot → Slot → Instr) : List (List Char) → Option (List Instr)
  | [a, b, c] => do some [mk (← readSlot a) (← readSlot b) (← readSlot c)]
  | _ => none

/-- Five operands of SETTILE. -/
def readTile : List (List Char) → Option (List Instr)
  | [g, r, c, l, f] => do
    some [.settile (← readSlot g) (← readInt r) (← readInt c) (← readBit l) (← readBit f)]
  | _ => none

/-- One operand. -/
def readOne {α : Type} (read : List Char → Option α) (mk : α → Instr) : List (List Char) → Option (List Instr)
  | [x] => (read x).map (fun v => [mk v])
  | _ => none

/-- Five operands of ENCRYPT. -/
def readEncrypt : List (List Char) → Option (List Instr)
  | [a, w, h, d, e] => do
    some (encryptFlow (← readAddr a) (← readInt w) (← readInt h) (← readAddr d) (← readAddr e))
  | _ => none

/-- Five operands of DECRYPT. -/
def readDecrypt : List (List Char) → Option (List Instr)
  | [a, b, w, h, d] => do
    some (decryptFlow (← readAddr a) (← readAddr b) (← readInt w) (← readInt h) (← readAddr d))
  | _ => none

/-- The commands a mnemonic with its operands stands for (R86, R88). -/
def assembleParts (m : List Char) (ops : List (List Char)) : Except AsmError (List Instr) :=
  if m = ['I', 'N', 'V'] then fitting (readOne readBit .inv ops)
  else if m = ['S', 'E', 'T', 'T', 'I', 'L', 'E'] then fitting (readTile ops)
  else if m = ['R', 'A', 'N', 'D', 'S', 'H', 'A', 'R', 'E'] then fitting (readDims .randshare ops)
  else if m = ['E', 'N', 'C', 'O', 'D', 'E'] then fitting (readThree .encode ops)
  else if m = ['R', 'E', 'C', 'O', 'V', 'E', 'R'] then fitting (readThree .recover ops)
  else if m = ['T', 'O', 'B', 'G'] then fitting (readDims .tobg ops)
  else if m = ['F', 'R', 'B', 'G'] then fitting (readOne readSlot .frbg ops)
  else if m = ['S', 'E', 'T', 'S', 'R', 'C'] then fitting (readOne readAddr .setsrc ops)
  else if m = ['S', 'E', 'T', 'D', 'S', 'T'] then fitting (readOne readAddr .setdst ops)
  else if m = ['G', 'N', 'E', 'W'] then fitting (readDims .gnew ops)
  else if m = ['E', 'N', 'C', 'R', 'Y', 'P', 'T'] then fitting (readEncrypt ops)
  else if m = ['D', 'E', 'C', 'R', 'Y', 'P', 'T'] then fitting (readDecrypt ops)
  else .error .unknownMnemonic

/-- One line (R86): a comment runs from `#` to the end; a line with nothing before it stands for no command. -/
def assembleLine (line : List Char) : Except AsmError (List Instr) :=
  let code := trim (line.takeWhile (fun c => c ≠ '#'))
  if code = [] then .ok []
  else assembleParts (code.takeWhile (fun c => c ≠ ' ')) (operandsOf (code.dropWhile (fun c => c ≠ ' ')))

end Sys2Proof.Machine
end

