-- ==== Sys2Proof/Tests/Slice0.lean ====
section
/-!
SUPPORT. Tests: the well-formedness smoke, words written out from 30_encoding.md, single steps with the results that
95_test_vectors.md gives, and for every statement of Certificates/Slice0 that has hypotheses a witness of them. The number
after "95" in a comment is the section and row of 95_test_vectors.md the expected result stands in.
-/

namespace Sys2Proof.Tests

open Sys2Proof Sys2Proof.Machine

/-! Helpers -/

/-- A row of cells from its digits. -/
def cells (ns : List Nat) : List Bit := ns.map (fun n => decide (n = 1))

/-- A grid of four columns from the digits of its rows. -/
def grid4 (rows : List (List Nat)) : Grid := ⟨4, rows.length, rows.map cells⟩

/-- A grid of two columns. -/
def grid2 (rows : List (List Nat)) : Grid := ⟨2, rows.length, rows.map cells⟩

/-- A grid of `w` columns and `h` rows of zeros. -/
def zeros (w h : Nat) : Grid := ⟨w, h, List.replicate h (List.replicate w false)⟩

/-- The reset state with the given grids in slots 0 and 1. -/
def with01 (x y : Option Grid) : State := { State.reset with slot0 := x, slot1 := y }

/-- The reset state with a finite stream. -/
def withRng (ns : List Nat) : State := { State.reset with rng := .finite (cells ns) }

/-- The reset state with a program. -/
def withProg (ws : List Word) : State := { State.reset with prog := ws }

/-- The reset state with the given bytes in `BUF` from `0x100` on. -/
def withBytes (bs : List Byte) : State := { State.reset with buf := cellsFrom 256 bs, srcBase := 256 }

/-- The source `10/01` and the share `1001/0110/1001/0110` of 95 1.1. -/
def source : Grid := grid2 [[1, 0], [0, 1]]

/-- The share of 95 1.1. -/
def share : Grid := grid4 [[1, 0, 0, 1], [0, 1, 1, 0], [1, 0, 0, 1], [0, 1, 1, 0]]

/-- The cipher of 95 1.1. -/
def cipher : Grid := grid4 [[0, 1, 0, 1], [1, 0, 1, 0], [1, 0, 1, 0], [0, 1, 0, 1]]

/-- What an answer's next state holds, seen through `f`. -/
def seen {α : Type} (f : State → α) : Answer → Option α
  | .next t => some (f t)
  | .fault _ => none
  | .refused _ => none

/-- `FAULT`, `FPC`, `pc` of a state. -/
def status (s : State) : Nat × Nat × Nat := (s.fault.toNat, s.fpc.toNat, s.pc.toNat)

/-! Well-formedness: one ill-formed term for each check (R86: an integer above 1023). -/

theorem test_wf_accepts : (Instr.settile .g3 1023 1023 true true).wellFormed = true := by decide
theorem test_wf_settile_row : (Instr.settile .g0 1024 0 true true).wellFormed = false := by decide
theorem test_wf_settile_col : (Instr.settile .g0 0 1024 true true).wellFormed = false := by decide
theorem test_wf_randshare_width : (Instr.randshare .g0 1024 2).wellFormed = false := by decide
theorem test_wf_randshare_height : (Instr.randshare .g0 2 1024).wellFormed = false := by decide
theorem test_wf_tobg_width : (Instr.tobg .g0 1024 1).wellFormed = false := by decide
theorem test_wf_tobg_height : (Instr.tobg .g0 1 1024).wellFormed = false := by decide
theorem test_wf_gnew_width : (Instr.gnew .g0 1024 1).wellFormed = false := by decide
theorem test_wf_gnew_height : (Instr.gnew .g0 1 1024).wellFormed = false := by decide

/-! Decoding: words written out field by field from R71, and the words of 95. -/

/-- op 0001, zeros, b 1. -/
theorem test_decode_inv : decode 0b00010000000000000000000000000001#32 = .command (.inv true) := by decide
/-- op 0010, g 01, row 0000000010, col 0000000100, lead 1, foll 0, zeros. -/
theorem test_decode_settile :
    decode 0b00100100000000100000000100100000#32 = .command (.settile .g1 2 4 true false) := by decide
/-- op 0011, g 01, width 1111101000, height 0000000010, zeros. -/
theorem test_decode_randshare :
    decode 0b00110111111010000000000010000000#32 = .command (.randshare .g1 1000 2) := by decide
/-- op 0100, gd 10, g1 00, g2 01, zeros. -/
theorem test_decode_encode : decode 0b01001000010000000000000000000000#32 = .command (.encode .g2 .g0 .g1) := by decide
/-- op 0101, gd 11, g1 10, g2 01, zeros. -/
theorem test_decode_recover : decode 0b01011110010000000000000000000000#32 = .command (.recover .g3 .g2 .g1) := by decide
/-- op 0110, g 00, width 0111110100, height 0111110100, zeros. -/
theorem test_decode_tobg : decode 0b01100001111101000111110100000000#32 = .command (.tobg .g0 500 500) := by decide
/-- op 0111, g 10, zeros. -/
theorem test_decode_frbg : decode 0b01111000000000000000000000000000#32 = .command (.frbg .g2) := by decide
/-- op 1000, sel 0, zeros, addr. -/
theorem test_decode_setsrc : decode 0b10000000000000000001000000000001#32 = .command (.setsrc 0x1001) := by decide
/-- op 1000, sel 1, zeros, addr. -/
theorem test_decode_setdst : decode 0b10001000111111111111111111111010#32 = .command (.setdst 0xFFFFFA) := by decide
/-- op 1001, g 11, width 1111101000, height 0000000101, zeros. -/
theorem test_decode_gnew : decode 0b10011111111010000000000101000000#32 = .command (.gnew .g3 1000 5) := by decide

/-- The words of 95 2.8, each rejected by the name of its reason. -/
theorem test_illegal_opcodes :
    [0x00000000#32, 0xFFFFFFFF#32, 0xA0000000#32, 0xF0000000#32].map decode =
      [0, 15, 10, 15].map (fun n => Decoded.illegal (.reservedOpcode n)) := by decide
theorem test_illegal_bits :
    [0x10000002#32, 0x20000021#32, 0x30000001#32, 0x90000020#32, 0x40000001#32, 0x48600000#32, 0x54000001#32,
      0x70000001#32, 0x81000000#32, 0x8C000000#32].map decode =
      [1, 2, 3, 9, 4, 4, 5, 7, 8, 8].map (fun n => Decoded.illegal (.reservedBits n)) := by decide
theorem test_table_numbering : decodeTableWord 32 0x9BE90080 = some (.gnew .g2 1001 2) := by decide

/-! Single steps -/

/-- 95 2.1: `INV 0` then the step as a whole from a placed word. -/
theorem test_inv_zero : seen State.res (execInv false State.reset) = some true := by decide
theorem test_inv_one :
    seen (fun t => (t.res, status t)) (step { withProg [0x10000001] with res := true }) = some (false, 0, 0, 1) := by
  decide

/-- 95 2.2 row 3. -/
theorem test_settile_cells :
    seen (fun t => (t.slot0, status t)) (exec (.settile .g0 2 2 false true) (with01 (some (zeros 4 4)) none)) =
      some (some (grid4 [[0, 0, 0, 0], [0, 0, 0, 0], [0, 0, 0, 1], [0, 0, 1, 0]]), 0, 0, 1) := by decide
/-- 95 2.2 row 11: the invalid slot is tested before the odd operands. -/
theorem test_settile_order : seen status (exec (.settile .g0 1 1 true false) State.reset) = some (4, 0, 0) := by decide

/-- 95 2.3 row 4: row-major draws, one bit left. -/
theorem test_randshare_order :
    seen (fun t => (t.slot1, t.rngPos)) (exec (.randshare .g1 6 4) (withRng [1, 1, 0, 1, 0, 0, 1])) =
      some (some ⟨6, 4, [cells [1, 0, 1, 0, 0, 1], cells [0, 1, 0, 1, 1, 0], cells [1, 0, 0, 1, 0, 1],
        cells [0, 1, 1, 0, 1, 0]]⟩, 6) := by decide
/-- 95 2.3 row 13: the three bits count as consumed and the slot becomes invalid. -/
theorem test_randshare_dry :
    seen (fun t => (t.slot1, t.rngPos, status t))
      (exec (.randshare .g1 4 4) { withRng [1, 0, 1] with slot1 := some (zeros 2 2), pc := 1 }) =
      some (none, 3, 8, 1, 1) := by decide

/-- 95 1.1, pc 3. -/
theorem test_encode_cells :
    seen State.slot2 (exec (.encode .g2 .g0 .g1) (with01 (some source) (some share))) = some (some cipher) := by decide
/-- 95 2.4 row 14: the destination is the share's own slot. -/
theorem test_encode_in_place :
    seen State.slot1 (exec (.encode .g1 .g0 .g1)
      (with01 (some (grid2 [[1, 0]])) (some (grid4 [[1, 0, 0, 1], [0, 1, 1, 0]])))) =
      some (some (grid4 [[0, 1, 0, 1], [1, 0, 1, 0]])) := by decide

/-- 95 1.1, pc 4. -/
theorem test_recover_cells :
    seen State.slot3 (exec (.recover .g3 .g0 .g1) (with01 (some cipher) (some share))) =
      some (some (grid4 [[1, 1, 0, 0], [1, 1, 0, 0], [0, 0, 1, 1], [0, 0, 1, 1]])) := by decide
/-- 95 2.5 row 2: same number of cells, different shape. -/
theorem test_recover_shape :
    seen status (exec (.recover .g2 .g0 .g1) { with01 (some (zeros 4 2)) (some (zeros 2 4)) with pc := 2 }) =
      some (5, 2, 2) := by decide

/-- 95 2.6 row 4: the bytes cut into rows of two; 254 and 1 give 0. -/
theorem test_tobg_cells :
    seen State.slot0 (exec (.tobg .g0 2 3) (withBytes [255, 0, 254, 255, 255, 1])) =
      some (some (grid2 [[1, 0], [0, 1], [1, 0]])) := by decide
/-- 95 2.6 row 6: no wrap to address 0. -/
theorem test_tobg_range :
    seen (fun t => (t.slot0, status t)) (exec (.tobg .g0 2 1) { State.reset with srcBase := 0xFFFFFF, pc := 1 }) =
      some (none, 7, 1, 1) := by decide

/-- 95 2.6 row 14: the last six bytes of `BUF`. -/
theorem test_frbg_bytes :
    seen State.buf (exec (.frbg .g0) { with01 (some (grid2 [[1, 0]])) none with dstBase := 0xFFFFFA }) =
      some (cellsFrom 0xFFFFFA [255, 255, 255, 0, 0, 0]) := by decide
/-- 95 2.6 row 15: no byte is written. -/
theorem test_frbg_range :
    seen (fun t => (t.buf, status t)) (exec (.frbg .g0) { with01 (some (grid2 [[1, 0]])) none with dstBase := 0xFFFFFB }) =
      some ([], 7, 0, 0) := by decide

/-- 95 2.6 rows 1 and 2. -/
theorem test_setsrc :
    seen (fun t => (t.srcBase, t.dstBase, status t)) (step (withProg [0x80FFFFFF])) = some (0xFFFFFF, 0, 0, 0, 1) := by
  decide
theorem test_setdst :
    seen (fun t => (t.srcBase, t.dstBase, status t)) (step (withProg [0x88FFFFFF])) = some (0, 0xFFFFFF, 0, 0, 1) := by
  decide

/-- 95 2.7 row 1. -/
theorem test_gnew_cells : seen State.slot0 (exec (.gnew .g0 3 5) State.reset) = some (some (zeros 3 5)) := by decide
/-- 95 2.7 row 4. -/
theorem test_gnew_range :
    seen (fun t => (t.slot2, status t)) (exec (.gnew .g2 2 1001) State.reset) = some (none, 2, 0, 0) := by decide

/-- 95 2.9 row 1: an empty `prog` is final at once. -/
theorem test_empty_prog : step State.reset = .fault .runEnded := rfl
/-- 95 2.8: the all-zero word. -/
theorem test_illegal_step : seen status (step (withProg [0, 0x10000000])) = some (1, 0, 0) := by decide
/-- 95 2.9 row 4: reset keeps `BUF` and the position in `rng`. -/
theorem test_reset_event :
    State.resetEvent { withBytes [255, 0, 0, 255] with rngPos := 6, fault := 5, fpc := 3, pc := 3, slot0 := some source } =
      { withBytes [255, 0, 0, 255] with rngPos := 6, srcBase := 0 } := by decide
/-- A placed word is the next one to run. -/
theorem test_with_fetch_word :
    seen State.dstBase (step (State.reset.withFetchWord 32 0x88001000)) = some 0x1000 := by decide

/-! The assembler: 95 P1 line by line -/

theorem test_assemble_settile :
    ((assembleLine "SETTILE G1, 2, 4, 1, 0  # a tile".toList).toOption.map (fun l => l.map encode)) =
      some [0x24020120] := by decide
theorem test_assemble_refuses :
    assembleLine "GNEW G0, 1024, 1".toList = .error .operandDoesNotFit := by decide
/-- The words of 95 P1. -/
theorem test_assemble_encrypt :
    ((assembleLine "ENCRYPT 0x100, 2, 2, 0x200, 0x300".toList).toOption.map (fun l => l.map encode)) =
      some [0x80000100, 0x60020080, 0x34040100, 0x48400000, 0x88000200, 0x74000000, 0x88000300, 0x78000000] := by decide
/-- The words of 95 P2. -/
theorem test_assemble_decrypt :
    ((assembleLine "DECRYPT 0x400, 0x500, 4, 4, 0x600".toList).toOption.map (fun l => l.map encode)) =
      some [0x80000400, 0x60040100, 0x80000500, 0x64040100, 0x58400000, 0x88000600, 0x78000000] := by decide

/-! Witnesses: concrete values that meet the hypotheses of each statement of Certificates/Slice0 together -/

theorem test_witness_DecodeOfEncodeIsTheCommand :
    (Instr.settile .g3 1023 0 true false).wellFormed = true ∧ (Instr.randshare .g2 1023 1023).wellFormed = true ∧
      (Instr.setdst 0xFFFFFF).wellFormed = true := by decide

theorem test_witness_EncodeOfDecodeIsTheWord :
    decode 0x2FFFFFF0 = .command (.settile .g3 1023 1023 true true) ∧ decode 0x8FFFFFFF = .illegal (.reservedBits 8) := by
  decide

theorem test_witness_InvWritesTheInverse :
    0x10000002#32 >>> 28 = 1 ∧ 0x10000002#32 &&& 0x0FFFFFFE ≠ 0 ∧ 0x18000000#32 >>> 28 = 1 ∧
      0x18000000#32 &&& 0x0FFFFFFE ≠ 0 := by decide

theorem test_witness_SetsrcAndSetdstWriteTheBase :
    0x81000000#32 >>> 28 = 8 ∧ 0x81000000#32 &&& 0x07000000 ≠ 0 ∧ 0x8C000000#32 >>> 28 = 8 ∧
      0x8C000000#32 &&& 0x07000000 ≠ 0 := by decide

theorem test_witness_DecodeFollowsMaskAndMatch :
    decode 0x7C000000 = .command (.frbg .g3) ∧ opcodeRow (.frbg .g0) ∈ opcodeTable ∧
      (opcodeRow (.frbg .g0)).Matches 0x7C000000 := by decide

theorem test_witness_IllegalWordRaisesIllegalCommand :
    (withProg [0x10000002]).fault = 0 ∧ (withProg [0x10000002]).prog.length < 2 ^ 32 ∧
      (withProg [0x10000002]).prog[(withProg [0x10000002]).pc.toNat]? = some 0x10000002 ∧
      ReservedWord 0x10000002 ∧ ReservedWord 0xA0000000 ∧ ¬ReservedWord 0x9FFFFFC0 := by decide

theorem test_witness_StepRunsTheDecodedCommand :
    let s := { withProg [0, 0x90030140] with pc := 1 }
    s.fault = 0 ∧ s.prog.length < 2 ^ 32 ∧ s.prog[s.pc.toNat]? = some 0x90030140 ∧
      decode 0x90030140 = .command (.gnew .g0 3 5) := by decide

theorem test_witness_NoStepWhenHaltedOrEnded :
    ({ State.reset with fault := 8 } : State).fault ≠ 0 ∧
      (let s := { withProg [0x10000000] with pc := 1 }
       s.fault = 0 ∧ s.prog.length < 2 ^ 32 ∧ s.pc.toNat = s.prog.length) := by decide

/-- A command that completes, one that faults, and one that exhausts the stream. -/
theorem test_witness_CommandCompletesOrTakesOneFault :
    (withRng [1]).fault = 0 ∧ seen status (exec (.randshare .g1 2 2) (withRng [1])) = some (0, 0, 1) ∧
      seen status (exec (.frbg .g1) (withRng [1])) = some (4, 0, 0) ∧
      seen status (exec (.randshare .g1 4 2) (withRng [1])) = some (8, 0, 0) := by decide

/-- Both DimRange and OddDimension hold of `RANDSHARE G1, 1001, 4`, and DimRange has the lower code; INV has no
condition at all. -/
theorem test_witness_LowestFaultCodeWins :
    State.reset.fault = 0 ∧ FaultCondition (.randshare .g1 1001 4) State.reset .dimRange ∧
      FaultCondition (.randshare .g1 1001 4) State.reset .oddDimension ∧
      (∀ d, FaultCondition (.randshare .g1 1001 4) State.reset d → (causeCode .dimRange).toNat ≤ (causeCode d).toNat) ∧
      ∀ c, ¬FaultCondition (.inv true) State.reset c := by
  refine ⟨rfl, ⟨(1001, 4), rfl, by decide⟩, ⟨_, _, _, rfl, by decide⟩, fun d hd => ?_, fun c => ?_⟩
  · cases d <;> first | exact hd.elim | decide
  · cases c <;> simp [FaultCondition, dimsOf, sourcesOf]

theorem test_witness_SettileWritesItsFourCells :
    (with01 (some (zeros 4 4)) none).slot .g0 = some (zeros 4 4) ∧ (zeros 4 4).wf ∧ 2 % 2 = 0 ∧
      2 + 1 < (zeros 4 4).height ∧ 2 + 1 < (zeros 4 4).width := by decide

/-- 95 2.2 rows 10, 5, 6, 8, 7. -/
theorem test_witness_SettileFaults :
    State.reset.slot .g0 = none ∧ (with01 (some (zeros 4 4)) none).slot .g0 = some (zeros 4 4) ∧
      [(1, 0), (0, 1), (4, 0), (2, 4)].map (fun p =>
        seen status (exec (.settile .g0 p.1 p.2 true false) (with01 (some (zeros 4 4)) none))) =
        List.replicate 4 (some (6, 0, 0)) := by decide

/-- The full capacity from an endless stream, and a finite stream with exactly the bits needed. -/
theorem test_witness_RandshareFillsTheSlotFromTheStream :
    (1000 ≤ State.reset.cfg.maxW ∧ 1000 ≤ State.reset.cfg.maxH ∧ 1000 % 2 = 0 ∧
      ∀ k, remaining State.reset.rng State.reset.rngPos = some k → 1000 / 2 * (1000 / 2) ≤ k) ∧
    (4 ≤ (withRng [0, 1]).cfg.maxW ∧ 2 ≤ (withRng [0, 1]).cfg.maxH ∧
      ∀ k, remaining (withRng [0, 1]).rng (withRng [0, 1]).rngPos = some k → 4 / 2 * (2 / 2) ≤ k) := by
  refine ⟨⟨by decide, by decide, rfl, fun k h => ?_⟩, by decide, by decide, fun k h => ?_⟩
  · cases h
  · cases h; decide

theorem test_witness_RandshareOperandFaults :
    State.reset.cfg.maxW < 1001 ∧ State.reset.cfg.maxH < 1002 ∧ 999 ≤ State.reset.cfg.maxW ∧
      1000 ≤ State.reset.cfg.maxH ∧ 999 % 2 = 1 := by decide

theorem test_witness_RandshareExhaustion :
    (withRng [1, 0, 1]).rng = .finite [true, false, true] ∧ 4 ≤ (withRng [1, 0, 1]).cfg.maxW ∧
      4 ≤ (withRng [1, 0, 1]).cfg.maxH ∧ 4 % 2 = 0 ∧ 3 - (withRng [1, 0, 1]).rngPos < 4 / 2 * (4 / 2) ∧
      State.reset.rng = .endless 0 ∧ 4 ≤ State.reset.cfg.maxW ∧ 4 ≤ State.reset.cfg.maxH := by decide

/-- Two states with different slots, registers and bytes that deliver the same two bits from different streams. -/
theorem test_witness_ShareIsDiagonalAndDependsOnItsDrawsOnly :
    let s := withRng [0, 1]
    let s' := { withRng [1, 0, 1, 1] with
      rngPos := 1, slot0 := some source, slot1 := some share, buf := [(0, 7)], res := true, srcBase := 9 }
    s.fault = 0 ∧ (∃ t, exec (.randshare .g1 4 2) s = .next t ∧ t.fault = 0) ∧ s'.fault = 0 ∧
      (∃ t', exec (.randshare .g2 4 2) s' = .next t' ∧ t'.fault = 0) ∧
      ∀ k, k < 4 / 2 * (2 / 2) → bitAt s'.rng (s'.rngPos + k) = bitAt s.rng (s.rngPos + k) :=
  ⟨rfl, ⟨_, rfl, rfl⟩, rfl, ⟨_, rfl, rfl⟩, by decide⟩

theorem test_witness_RandshareIsTheSetTileLoop :
    4 ≤ (withRng [0, 1]).cfg.maxW ∧ 2 ≤ (withRng [0, 1]).cfg.maxH ∧ 4 % 2 = 0 ∧ 2 % 2 = 0 ∧ (zeros 4 2).wf ∧
      (zeros 4 2).width = 4 ∧ (zeros 4 2).height = 2 ∧
      rngShort (withRng [0, 1]).rng (withRng [0, 1]).rngPos (4 / 2 * (2 / 2)) = false := by decide

theorem test_witness_EncodeMakesTheCipher :
    (with01 (some source) (some share)).slot .g0 = some source ∧ (with01 (some source) (some share)).slot .g1 = some share ∧
      share.width = 2 * source.width ∧ share.height = 2 * source.height := by decide

/-- Each source invalid on its own; the width wrong on its own, the height wrong on its own. -/
theorem test_witness_EncodeFaults :
    (with01 none (some share)).slot .g0 = none ∧ (with01 (some source) none).slot .g1 = none ∧
      (with01 (some (zeros 2 2)) (some (zeros 5 4))).slot .g1 = some (zeros 5 4) ∧
      (zeros 5 4).width ≠ 2 * (zeros 2 2).width ∧ (zeros 5 4).height = 2 * (zeros 2 2).height ∧
      (zeros 4 2).width = 2 * (zeros 2 2).width ∧ (zeros 4 2).height ≠ 2 * (zeros 2 2).height := by decide

theorem test_witness_CipherTilesAreDiagonal :
    (with01 (some source) (some share)).fault = 0 ∧ (with01 (some source) (some share)).slot .g1 = some share ∧
      ∃ t, exec (.encode .g2 .g0 .g1) (with01 (some source) (some share)) = .next t ∧ t.fault = 0 :=
  ⟨rfl, rfl, _, rfl, rfl⟩

/-- The sources `10` and `00` of 95 2.4 row 16: one source bit differs, one is equal. -/
theorem test_witness_SameShareTwoSources :
    let S := grid2 [[1, 0]]
    let S' := grid2 [[0, 0]]
    let R := grid4 [[1, 0, 1, 0], [0, 1, 0, 1]]
    let s := with01 (some S) (some R)
    let s' := with01 (some S') (some R)
    s.slot .g0 = some S ∧ s'.slot .g0 = some S' ∧ s.slot .g1 = some R ∧ s'.slot .g1 = some R ∧
      R.width = 2 * S.width ∧ R.height = 2 * S.height ∧ S'.width = S.width ∧ S'.height = S.height ∧
      S.cell 0 0 ≠ S'.cell 0 0 ∧ S.cell 0 1 = S'.cell 0 1 ∧ Slot.g2 ≠ Slot.g1 := by decide

/-- The two pixels of a 2 × 1 source in reverse order. -/
theorem test_witness_EncodeIsTheSetTileLoopInAnyOrder :
    (with01 (some (zeros 2 1)) (some (zeros 4 2))).slot .g0 = some (zeros 2 1) ∧
      (with01 (some (zeros 2 1)) (some (zeros 4 2))).slot .g1 = some (zeros 4 2) ∧
      (zeros 4 2).width = 2 * (zeros 2 1).width ∧ (zeros 4 2).height = 2 * (zeros 2 1).height ∧ (zeros 4 2).wf ∧
      ∀ i j, (i, j) ∈ [(0, 1), (0, 0)] ↔ i < (zeros 2 1).height ∧ j < (zeros 2 1).width := by
  refine ⟨rfl, rfl, rfl, rfl, by decide, fun i j => ?_⟩
  simp [zeros]
  omega

theorem test_witness_RecoverXorsTheCells :
    (with01 (some cipher) (some share)).slot .g0 = some cipher ∧ (with01 (some cipher) (some share)).slot .g1 = some share ∧
      cipher.width = share.width ∧ cipher.height = share.height := by decide

theorem test_witness_RecoverFaults :
    (with01 none (some share)).slot .g0 = none ∧ (with01 (some share) none).slot .g1 = none ∧
      (with01 (some (zeros 4 2)) (some (zeros 4 4))).slot .g1 = some (zeros 4 4) ∧
      (zeros 4 2).height ≠ (zeros 4 4).height ∧ (zeros 4 2).width ≠ (zeros 2 2).width := by decide

/-- Tile (0, 0) has opposite patterns and tile (2, 0) the same one, the last tile of the column. -/
theorem test_witness_XorOfDiagonalTilesIsUniform :
    let s := with01 (some cipher) (some share)
    s.slot .g0 = some cipher ∧ s.slot .g1 = some share ∧ cipher.width = share.width ∧ cipher.height = share.height ∧
      2 % 2 = 0 ∧ 2 + 1 < cipher.height ∧ 0 + 1 < cipher.width ∧ DiagonalTile cipher 0 0 ∧ DiagonalTile share 0 0 ∧
      cipher.cell 0 0 ≠ share.cell 0 0 ∧ DiagonalTile cipher 2 0 ∧ DiagonalTile share 2 0 ∧
      cipher.cell 2 0 = share.cell 2 0 := by decide

theorem test_witness_RecoverOfEncodeIsTheSource :
    let s := with01 (some source) (some share)
    s.slot .g0 = some source ∧ s.slot .g1 = some share ∧ share.width = 2 * source.width ∧
      share.height = 2 * source.height ∧ Slot.g2 ≠ Slot.g1 ∧ DiagonalTile share 2 2 := by decide

theorem test_witness_TrueShareRecoversTheDoubledSource :
    let s := { withRng [1, 0, 1, 0] with slot0 := some source }
    s.slot .g0 = some source ∧ Slot.g1 ≠ Slot.g0 ∧ Slot.g2 ≠ Slot.g1 ∧ 2 * source.width ≤ s.cfg.maxW ∧
      2 * source.height ≤ s.cfg.maxH ∧ ∀ k, remaining s.rng s.rngPos = some k → source.width * source.height ≤ k := by
  refine ⟨rfl, by decide, by decide, by decide, by decide, fun k h => ?_⟩
  cases h
  decide

/-- The last byte of `BUF` is inside, one more is not. -/
theorem test_witness_TobgReadsThePixelBuffer :
    let s := { State.reset with srcBase := 0xF0BDC0 }
    1000 ≤ s.cfg.maxW ∧ 1000 ≤ s.cfg.maxH ∧ s.srcBase.toNat + 1000 * 1000 ≤ s.cfg.bufBytes := by decide

theorem test_witness_TobgFaults :
    let s := { State.reset with srcBase := 0xF0BDC1 }
    s.cfg.maxW < 1001 ∧ s.cfg.maxH < 1001 ∧ 1000 ≤ s.cfg.maxW ∧ 1000 ≤ s.cfg.maxH ∧
      s.cfg.bufBytes < s.srcBase.toNat + 1000 * 1000 := by decide

theorem test_witness_FrbgWritesTheRgbBuffer :
    let s := { with01 (some (grid2 [[1, 0]])) none with dstBase := 0xFFFFFA }
    s.slot .g0 = some (grid2 [[1, 0]]) ∧
      s.dstBase.toNat + 3 * (grid2 [[1, 0]]).width * (grid2 [[1, 0]]).height ≤ s.cfg.bufBytes := by decide

theorem test_witness_FrbgFaults :
    State.reset.slot .g0 = none ∧
      (let s := { with01 (some (grid2 [[1, 0]])) none with dstBase := 0xFFFFFB }
       s.slot .g0 = some (grid2 [[1, 0]]) ∧
         s.cfg.bufBytes < s.dstBase.toNat + 3 * (grid2 [[1, 0]]).width * (grid2 [[1, 0]]).height) := by decide

/-- One pixel, its three channels in reverse order. -/
theorem test_witness_FrbgIsTheMemWriteLoopInAnyOrder :
    let s := with01 (some (zeros 1 1)) none
    s.slot .g0 = some (zeros 1 1) ∧ Memory.wf s.buf ∧ s.dstBase.toNat + 3 * 1 * 1 ≤ s.cfg.bufBytes ∧
      ∀ row col ch, (row, col, ch) ∈ [(0, 0, 2), (0, 0, 1), (0, 0, 0)] ↔
        row < (zeros 1 1).height ∧ col < (zeros 1 1).width ∧ ch < 3 := by
  refine ⟨rfl, List.Pairwise.nil, by decide, fun row col ch => ?_⟩
  simp [zeros]
  omega

/-- 95 2.6 row 19 for the first clause; one channel of FRBG's bytes copied to a pixel buffer for the second. -/
theorem test_witness_AdapterRoundTrip :
    (let s := { withBytes [255, 0, 0, 255, 255, 255] with dstBase := 512 }
     3 ≤ s.cfg.maxW ∧ 2 ≤ s.cfg.maxH ∧ s.srcBase.toNat + 3 * 2 ≤ s.cfg.bufBytes ∧
       s.dstBase.toNat + 3 * 3 * 2 ≤ s.cfg.bufBytes ∧
       ∀ n, n < 3 * 2 → memRead s (s.srcBase.toNat + n) = 0 ∨ memRead s (s.srcBase.toNat + n) = 255) ∧
    (let s := with01 (some (grid2 [[1, 0]])) none
     let s' := withBytes [255, 0]
     s.slot .g0 = some (grid2 [[1, 0]]) ∧ (grid2 [[1, 0]]).wf ∧ s.dstBase.toNat + 3 * 2 * 1 ≤ s.cfg.bufBytes ∧
       2 ≤ s'.cfg.maxW ∧ 1 ≤ s'.cfg.maxH ∧ s'.srcBase.toNat + 2 * 1 ≤ s'.cfg.bufBytes ∧
       seen (fun t => decide (∀ n, n < 2 * 1 →
         memRead s' (s'.srcBase.toNat + n) = memRead t (s.dstBase.toNat + 3 * n + 2))) (exec (.frbg .g0) s) = some true) := by
  decide

theorem test_witness_GnewMakesTheZeroGrid :
    1000 ≤ State.reset.cfg.maxW ∧ 1000 ≤ State.reset.cfg.maxH := by decide

theorem test_witness_GnewFault :
    State.reset.cfg.maxW < 1001 ∧ State.reset.cfg.maxH < 1001 := by decide

theorem test_witness_OnlyTheNamedCommandWritesEachPiece :
    ∃ t, exec (.gnew .g0 3 5) State.reset = .next t ∧ (∀ b, Instr.gnew .g0 3 5 ≠ .inv b) ∧
      (∀ a, Instr.gnew .g0 3 5 ≠ .setsrc a) ∧ (∀ a, Instr.gnew .g0 3 5 ≠ .setdst a) ∧
      (∀ g w h, Instr.gnew .g0 3 5 ≠ .randshare g w h) ∧ (∀ g, Instr.gnew .g0 3 5 ≠ .frbg g) ∧
      destinationOf (.gnew .g0 3 5) ≠ some .g1 :=
  ⟨_, rfl, nofun, nofun, nofun, nofun, nofun, by decide⟩

theorem test_witness_OnlyExhaustionClearsAValidBit :
    let s := { withRng [1, 0, 1] with slot1 := some (zeros 2 2) }
    ∃ t, exec (.randshare .g1 4 4) s = .next t ∧ s.valid .g1 = true ∧ t.valid .g1 = false :=
  ⟨_, rfl, rfl, rfl⟩

theorem test_witness_ResetValuesAndTheOnlyWayOutOfHalt :
    let s := { State.reset with fault := 1 }
    s.fault ≠ 0 ∧ HostMove.writeBuf 0xFFFFFF 7 ≠ .reset ∧
      seen State.fault (hostMove (.writeBuf 0xFFFFFF 7) s) = some 1 := by decide

/-- Reset meets the invariant; with a word to fetch it also takes a step. -/
theorem inv_of_a_program : Inv (withProg [0x10000000]) where
  cfg := by decide
  prog := by decide
  slots := fun g x hx => by cases g <;> cases hx
  bufForm := List.Pairwise.nil
  bufBound := nofun
  rng := rfl
  pc := by decide
  fault := by decide
  fpc := rfl

theorem test_witness_StepKeepsTheInvariant :
    Inv (withProg [0x10000000]) ∧ ∃ t, step (withProg [0x10000000]) = .next t :=
  ⟨inv_of_a_program, _, rfl⟩

theorem test_witness_HostMovesKeepTheInvariant :
    Inv (withProg [0x10000000]) ∧ (∃ t, hostMove .reset (withProg [0x10000000]) = .next t) ∧
      (∃ t, hostMove (.writeBuf 0xFFFFFF 7) (withProg [0x10000000]) = .next t) ∧
      (∃ t, hostMove (.supplyProg []) (withProg [0x10000000]) = .next t) ∧
      ∃ t, hostMove (.connectRng (.finite [true])) (withProg [0x10000000]) = .next t :=
  ⟨inv_of_a_program, ⟨_, rfl⟩, ⟨_, rfl⟩, ⟨_, rfl⟩, _, rfl⟩

theorem test_witness_ResetKeepsTheEnvironment :
    ∃ t, hostMove .reset { withBytes [255] with rngPos := 6, fault := 5 } = .next t := ⟨_, rfl⟩

/-- The first and the last place a run of three commands is in progress. -/
theorem test_witness_HostIsRefusedDuringARun :
    ({ withProg [0x10000000, 0x10000000, 0x10000000] with pc := 1 } : State).inProgress = true ∧
      ({ withProg [0x10000000, 0x10000000, 0x10000000] with pc := 2 } : State).inProgress = true ∧
      HostMove.supplyProg [] ≠ .reset := by decide

/-- Reset, a completed run and a halted core are outside a run; the last byte of `BUF` is written and read. -/
theorem test_witness_HostActsOutsideARun :
    State.reset.pc = 0 ∧ State.reset.fault = 0 ∧ State.reset.inProgress = false ∧
      ({ withProg [0x10000000] with pc := 1 } : State).final = true ∧
      ({ withProg [0x10000000] with pc := 1 } : State).inProgress = false ∧
      ({ withProg [0, 0, 0] with pc := 1, fault := 1, fpc := 1 } : State).inProgress = false ∧
      0xFFFFFF < State.reset.cfg.bufBytes ∧ [0x10000000#32].length < 2 ^ 32 := by decide

theorem test_witness_EveryRunEnds :
    let s := { withProg [0x10000000] with pc := 1 }
    s.prog.length < 2 ^ 32 ∧ s.pc.toNat ≤ s.prog.length ∧ (withProg [0]).pc.toNat ≤ (withProg [0]).prog.length := by decide

end Sys2Proof.Tests
end

section
/-!
PROOFS of the family 00_scope.md: the machine's invariant is kept by every step and by every move of the host, and what
the host may do during a run and outside one. One lemma per update of the state says when it keeps the invariant; a
command is such updates followed by `advance` or `enterFault`.
-/

namespace Sys2Proof.Machine

/-! The parts of the invariant -/

theorem slotOk_none (cfg : Config) : SlotOk cfg none := nofun

theorem slotOk_some (cfg : Config) (x : Grid) :
    SlotOk cfg (some x) ↔ x.wf ∧ x.width ≤ cfg.maxW ∧ x.height ≤ cfg.maxH := by
  simp [SlotOk]

/-- Position 0 is inside every stream (R33). -/
theorem rngOk_zero (src : BitSource) : RngOk src 0 = true := by
  cases src <;> simp [RngOk]

/-- The end of a stream is inside it (R112). -/
theorem rngOk_rngEnd (src : BitSource) (pos : Nat) : RngOk src (rngEnd src pos) = true := by
  cases src <;> simp [RngOk, rngEnd]

/-- Drawing no more bits than the stream can deliver stays inside it (R33, R112). -/
theorem rngOk_add {src : BitSource} {pos n : Nat} (hpos : RngOk src pos = true) (hn : rngShort src pos n = false) :
    RngOk src (pos + n) = true := by
  cases src with
  | endless number => rfl
  | finite bits =>
    simp only [RngOk, rngShort, remaining, decide_eq_true_eq, decide_eq_false_iff_not] at *
    omega

/-! Every update of the state keeps the invariant -/

section
variable {s : State}

/-- What a valid slot holds is a grid within capacity (R22). -/
theorem Inv.grid (hs : Inv s) {g : Slot} {x : Grid} (hx : s.slot g = some x) :
    x.wf ∧ x.width ≤ s.cfg.maxW ∧ x.height ≤ s.cfg.maxH :=
  hs.slots g x hx

theorem Inv.setRes (hs : Inv s) (b : Bit) : Inv (s.setRes b) :=
  { hs with slots := by simpa using hs.slots }

theorem Inv.setSrcBase (hs : Inv s) (a : Addr) : Inv (s.setSrcBase a) :=
  { hs with slots := by simpa using hs.slots }

theorem Inv.setDstBase (hs : Inv s) (a : Addr) : Inv (s.setDstBase a) :=
  { hs with slots := by simpa using hs.slots }

theorem Inv.setRngPos (hs : Inv s) {n : Nat} (hn : RngOk s.rng n = true) : Inv (s.setRngPos n) :=
  { hs with slots := by simpa using hs.slots, rng := hn }

/-- Writing bytes inside `BUF` keeps the invariant (R50). -/
theorem Inv.setBuf_bufWrite (hs : Inv s) {base : Nat} {bytes : List Byte}
    (hin : base + bytes.length ≤ s.cfg.bufBytes) : Inv (s.setBuf (bufWrite s.buf base bytes)) :=
  { hs with
    slots := by simpa using hs.slots
    bufForm := bufWrite_wf hs.bufForm base bytes
    bufBound := bufWrite_bound hs.bufBound hin }

/-- Replacing a slot by a grid within capacity, or by nothing, keeps the invariant (R22). -/
theorem Inv.setSlot (hs : Inv s) (g : Slot) {x : Option Grid} (hx : SlotOk s.cfg x) : Inv (s.setSlot g x) where
  cfg := by simpa using hs.cfg
  prog := by simpa using hs.prog
  slots h := by
    rw [State.cfg_setSlot, State.slot_setSlot]
    split
    · exact hx
    · exact hs.slots h
  bufForm := by simpa using hs.bufForm
  bufBound := by simpa using hs.bufBound
  rng := by simpa using hs.rng
  pc := by simpa using hs.pc
  fault := by simpa using hs.fault
  fpc := by simpa using hs.fpc

/-- Taking a fault records one of the codes 1 to 8 and the `pc` of the command (R172). -/
theorem Inv.enterFault (hs : Inv s) (c : Cause) : Inv (s.enterFault c) :=
  { hs with
    slots := by simpa using hs.slots
    fault := causeCode_le_eight c
    fpc := (if_neg (causeCode_ne_zero c)).symm }

/-- Completing a command of `prog` moves `pc` at most to the end of `prog`, which is below 2^32, so `pc` does not wrap
(R25, R26). -/
theorem Inv.advance (hs : Inv s) (hf : s.fault = 0) (hpc : s.pc.toNat < s.prog.length) : Inv s.advance :=
  { hs with
    slots := by simpa using hs.slots
    pc := by
      have hlen := hs.prog
      rw [State.pc_advance, State.prog_advance]
      bv_omega
    fpc := by simpa [hf] using hs.fpc }

/-- A command that makes a grid within capacity in slot `g` and completes keeps the invariant. -/
theorem Inv.setSlot_advance (hs : Inv s) (hf : s.fault = 0) (hpc : s.pc.toNat < s.prog.length) (g : Slot) {x : Grid}
    (hwf : x.wf) (hw : x.width ≤ s.cfg.maxW) (hh : x.height ≤ s.cfg.maxH) : Inv (s.setSlot g (some x)).advance :=
  (hs.setSlot g ((slotOk_some _ _).2 ⟨hwf, hw, hh⟩)).advance (by simpa using hf) (by simpa using hpc)

/-- Supplying an admitted `prog` before the first command keeps the invariant (R25, R203). -/
theorem Inv.supplyProg (hs : Inv s) (hpc : s.pc = 0) {p : List Word} (hp : p.length < 4294967296) :
    Inv { s with prog := p } :=
  { hs with prog := hp, pc := by simp [hpc] }

theorem Inv.connectRng (hs : Inv s) (src : BitSource) : Inv { s with rng := src, rngPos := 0 } :=
  { hs with rng := rngOk_zero src }

theorem Inv.resetEvent (hs : Inv s) : Inv s.resetEvent :=
  { hs with
    slots g := by
      rw [State.slot_resetEvent]
      exact slotOk_none _
    pc := Nat.zero_le _
    fault := Nat.zero_le _
    fpc := rfl }

end

/-! The step -/

/-- A command of `prog` that the core, not halted, executes keeps the invariant, on every path of every command (R26). -/
theorem Inv.exec {s t : State} (hs : Inv s) (hf : s.fault = 0) (hpc : s.pc.toNat < s.prog.length) {i : Instr}
    (h : exec i s = .next t) : Inv t := by
  cases i with
  | inv b =>
    cases (exec_inv_eq b s).symm.trans h
    exact (hs.setRes _).advance hf hpc
  | settile g row col l f =>
    rcases exec_settile_cases g row col l f s with ⟨-, e⟩ | ⟨x, -, -, e⟩ | ⟨x, hx, -, e⟩ <;> cases e.symm.trans h
    · exact hs.enterFault _
    · exact hs.enterFault _
    · obtain ⟨hwf, hw, hh⟩ := hs.grid hx
      exact hs.setSlot_advance hf hpc g (setTile_wf hwf ..) hw hh
  | randshare gd width height =>
    rcases exec_randshare_cases gd width height s with ⟨-, e⟩ | ⟨-, -, e⟩ | ⟨-, -, -, e⟩ | ⟨hdim, -, hbits, e⟩ <;>
      cases e.symm.trans h
    · exact hs.enterFault _
    · exact hs.enterFault _
    · exact ((hs.setRngPos (rngOk_rngEnd _ _)).setSlot gd (slotOk_none _)).enterFault _
    · exact (hs.setRngPos (rngOk_add hs.rng hbits)).setSlot_advance hf hpc gd (shareGrid_wf ..)
        (by simp; omega) (by simp; omega)
  | encode gd gs gr =>
    rcases exec_encode_cases gd gs gr s with ⟨-, e⟩ | ⟨S, R, -, -, -, e⟩ | ⟨S, R, -, hR, -, -, e⟩ <;>
      cases e.symm.trans h
    · exact hs.enterFault _
    · exact hs.enterFault _
    · obtain ⟨-, hw, hh⟩ := hs.grid hR
      exact hs.setSlot_advance hf hpc gd (cipherGrid_wf ..) hw hh
  | recover gd ga gb =>
    rcases exec_recover_cases gd ga gb s with ⟨-, e⟩ | ⟨A, B, -, -, -, e⟩ | ⟨A, B, hA, -, -, -, e⟩ <;>
      cases e.symm.trans h
    · exact hs.enterFault _
    · exact hs.enterFault _
    · obtain ⟨-, hw, hh⟩ := hs.grid hA
      exact hs.setSlot_advance hf hpc gd (xorGrid_wf ..) hw hh
  | tobg gd width height =>
    rcases exec_tobg_cases gd width height s with ⟨-, e⟩ | ⟨-, -, e⟩ | ⟨hdim, -, e⟩ <;> cases e.symm.trans h
    · exact hs.enterFault _
    · exact hs.enterFault _
    · exact hs.setSlot_advance hf hpc gd (bufferGrid_wf ..) (by simp; omega) (by simp; omega)
  | frbg gs =>
    rcases exec_frbg_cases gs s with ⟨-, e⟩ | ⟨x, -, -, e⟩ | ⟨x, -, hin, e⟩ <;> cases e.symm.trans h
    · exact hs.enterFault _
    · exact hs.enterFault _
    · exact (hs.setBuf_bufWrite (by rwa [rgbBytes_length])).advance hf hpc
  | setsrc a =>
    cases (exec_setsrc_eq a s).symm.trans h
    exact (hs.setSrcBase a).advance hf hpc
  | setdst a =>
    cases (exec_setdst_eq a s).symm.trans h
    exact (hs.setDstBase a).advance hf hpc
  | gnew gd width height =>
    rcases exec_gnew_cases gd width height s with ⟨-, e⟩ | ⟨hdim, e⟩ <;> cases e.symm.trans h
    · exact hs.enterFault _
    · exact hs.setSlot_advance hf hpc gd (blankGrid_wf ..) (by simp; omega) (by simp; omega)

/-- Settles O41: the step takes the fault of an illegal word or executes the command at `pc`, and both keep the
invariant. -/
theorem stepKeepsTheInvariant : Obligations.StepKeepsTheInvariant := by
  intro s t hs h
  obtain ⟨hf, -, w, hw, ⟨i, -, hexec⟩ | ⟨_, -, rfl⟩⟩ := step_cases h
  · exact hs.exec hf (List.getElem?_eq_some_iff.1 hw).1 hexec
  · exact hs.enterFault _

/-! The host -/

/-- Settles O42, field by field from the values of R200 and R4. -/
theorem resetStateMeetsTheInvariant : Obligations.ResetStateMeetsTheInvariant where
  cfg := by decide
  prog := by decide
  slots g := by cases g <;> exact slotOk_none _
  bufForm := Memory.wf_nil
  bufBound := nofun
  rng := rngOk_zero _
  pc := by decide
  fault := by decide
  fpc := rfl

/-- Settles O43, move by move. -/
theorem hostMovesKeepTheInvariant : Obligations.HostMovesKeepTheInvariant := by
  intro m s t hs h
  rcases hostMove_cases h with ⟨-, rfl⟩ | ⟨a, v, -, -, ha, rfl⟩ | ⟨p, -, hpc, -, hp, rfl⟩ | ⟨src, -, -, rfl⟩
  · exact hs.resetEvent
  · exact hs.setBuf_bufWrite ha
  · exact hs.supplyProg hpc hp
  · exact hs.connectRng src

/-- Settles O46: the guard of each move, and of each read, is closed while a run is in progress. -/
theorem hostIsRefusedDuringARun : Obligations.HostIsRefusedDuringARun := by
  intro s hrun
  obtain ⟨-, hpc, -⟩ := (inProgress_iff s).1 hrun
  refine ⟨fun m hm => ?_, if_pos hrun, fun a => if_pos hrun⟩
  cases m with
  | reset => exact absurd rfl hm
  | writeBuf a v => exact if_pos hrun
  | supplyProg p => exact if_pos (.inl hpc)
  | connectRng src => exact if_pos hrun

/-- Before the first command, in the halted state and after the end no run is in progress (R11, R203). -/
theorem inProgress_eq_false {s : State} (h : s.pc = 0 ∨ s.fault ≠ 0 ∨ s.final = true) : s.inProgress = false := by
  rw [Bool.eq_false_iff, Ne, inProgress_iff]
  rintro ⟨hfault, hpc, hlt⟩
  rcases h with h | h | h
  · exact hpc h
  · exact h hfault
  · exact Nat.ne_of_lt hlt ((final_iff s).1 h).2

section
variable {s : State} (hrun : s.inProgress = false)
include hrun

theorem hostStatus_outside_run :
    hostStatus s = some ⟨s.pc, s.res, s.srcBase, s.dstBase, s.fault, s.fpc⟩ := by
  simp [hostStatus, hrun]

theorem hostReadBuf_outside_run {a : Nat} (ha : a < s.cfg.bufBytes) : hostReadBuf s a = some (memRead s a) := by
  simp [hostReadBuf, hrun, ha]

theorem hostMove_writeBuf_outside_run {a : Nat} (v : Byte) (ha : a < s.cfg.bufBytes) :
    hostMove (.writeBuf a v) s = .next (memWrite s a v) := by
  simp [hostMove, hrun, ha]

theorem hostMove_connectRng_outside_run (src : BitSource) :
    hostMove (.connectRng src) s = .next { s with rng := src, rngPos := 0 } := by
  simp [hostMove, hrun]

end

theorem hostMove_supplyProg_before_run {s : State} {p : List Word} (hpc : s.pc = 0) (hfault : s.fault = 0)
    (hp : p.length < 4294967296) : hostMove (.supplyProg p) s = .next { s with prog := p } := by
  simp [hostMove, hpc, hfault, hp]

/-- Settles O48; what `BUF` reads as after a host write is `memRead_memWrite`. -/
theorem hostActsOutsideARun : Obligations.HostActsOutsideARun := by
  intro s
  refine ⟨inProgress_eq_false, fun hrun => ⟨hostStatus_outside_run hrun, fun a => hostReadBuf_outside_run hrun,
    fun a v ha => ?_, hostMove_connectRng_outside_run hrun, fun p => hostMove_supplyProg_before_run⟩⟩
  refine ⟨bufWrite s.buf a [v], hostMove_writeBuf_outside_run hrun v ha, ?_, fun b hb => ?_⟩
  · exact (memRead_memWrite s a v a).trans (if_pos rfl)
  · exact (memRead_memWrite s a v b).trans (if_neg hb)

end Sys2Proof.Machine
end

section
/-!
PROOFS of the family 10_state.md: what every command can answer, said once over all ten (`execCase`), and from it the
frame of each command, the one precise fault, the valid bits and the end of every run.
-/

namespace Sys2Proof.Machine

/-! What the commands can answer -/

/-- `Update i s u`: `u` is `s` with a piece of state changed that a completing command `i` may write, before `pc`
moves on. -/
inductive Update : Instr → State → State → Prop where
  | res (b : Bit) (s : State) (v : Bit) : Update (.inv b) s (s.setRes v)
  | srcBase (a : Addr) (s : State) : Update (.setsrc a) s (s.setSrcBase a)
  | dstBase (a : Addr) (s : State) : Update (.setdst a) s (s.setDstBase a)
  | buf (gs : Slot) (s : State) (m : Memory) : Update (.frbg gs) s (s.setBuf m)
  | slot {i : Instr} {gd : Slot} (hd : destinationOf i = some gd) (s : State) (x : Grid) :
      Update i s (s.setSlot gd (some x))
  | share (gd : Slot) (w h : Nat) (s : State) (n : Nat) (x : Grid) :
      Update (.randshare gd w h) s ((s.setRngPos n).setSlot gd (some x))

/-- The three ends of a command: it completes (R26), it takes a fault and changes nothing else (R172), or it is a
RANDSHARE that exhausts the stream (R112, R180). -/
inductive ExecCase (i : Instr) (s : State) : Prop where
  | completes (u : State) (hu : Update i s u) (h : exec i s = .next u.advance)
  | faults (c : Cause) (hc : c ≠ .rngExhausted) (h : exec i s = .next (s.enterFault c))
  | exhausts (gd : Slot) (width height : Nat) (hi : i = .randshare gd width height)
      (h : exec i s = .next (((s.setRngPos (rngEnd s.rng s.rngPos)).setSlot gd none).enterFault .rngExhausted))

/-- Every command ends in one of the three ways. -/
theorem execCase (i : Instr) (s : State) : ExecCase i s := by
  cases i with
  | inv b => exact .completes _ (.res b s _) (exec_inv_eq b s)
  | settile g row col l f =>
    rcases exec_settile_cases g row col l f s with ⟨-, e⟩ | ⟨x, -, -, e⟩ | ⟨x, -, -, e⟩
    · exact .faults .slotInvalid nofun e
    · exact .faults .tileRange nofun e
    · exact .completes _ (.slot rfl s _) e
  | randshare gd w h =>
    rcases exec_randshare_cases gd w h s with ⟨-, e⟩ | ⟨-, -, e⟩ | ⟨-, -, -, e⟩ | ⟨-, -, -, e⟩
    · exact .faults .dimRange nofun e
    · exact .faults .oddDimension nofun e
    · exact .exhausts gd w h rfl e
    · exact .completes _ (.share gd w h s _ _) e
  | encode gd gs gr =>
    rcases exec_encode_cases gd gs gr s with ⟨-, e⟩ | ⟨S, R, -, -, -, e⟩ | ⟨S, R, -, -, -, -, e⟩
    · exact .faults .slotInvalid nofun e
    · exact .faults .dimMismatch nofun e
    · exact .completes _ (.slot rfl s _) e
  | recover gd ga gb =>
    rcases exec_recover_cases gd ga gb s with ⟨-, e⟩ | ⟨A, B, -, -, -, e⟩ | ⟨A, B, -, -, -, -, e⟩
    · exact .faults .slotInvalid nofun e
    · exact .faults .dimMismatch nofun e
    · exact .completes _ (.slot rfl s _) e
  | tobg gd w h =>
    rcases exec_tobg_cases gd w h s with ⟨-, e⟩ | ⟨-, -, e⟩ | ⟨-, -, e⟩
    · exact .faults .dimRange nofun e
    · exact .faults .addrRange nofun e
    · exact .completes _ (.slot rfl s _) e
  | frbg gs =>
    rcases exec_frbg_cases gs s with ⟨-, e⟩ | ⟨x, -, -, e⟩ | ⟨x, -, -, e⟩
    · exact .faults .slotInvalid nofun e
    · exact .faults .addrRange nofun e
    · exact .completes _ (.buf gs s _) e
  | setsrc a => exact .completes _ (.srcBase a s) (exec_setsrc_eq a s)
  | setdst a => exact .completes _ (.dstBase a s) (exec_setdst_eq a s)
  | gnew gd w h =>
    rcases exec_gnew_cases gd w h s with ⟨-, e⟩ | ⟨-, e⟩
    · exact .faults .dimRange nofun e
    · exact .completes _ (.slot rfl s _) e

/-! What a completing command leaves -/

@[simp] theorem memRead_setRes (s : State) (b : Bit) (a : Nat) : memRead (s.setRes b) a = memRead s a := rfl

@[simp] theorem memRead_setSrcBase (s : State) (b : Addr) (a : Nat) : memRead (s.setSrcBase b) a = memRead s a := rfl

@[simp] theorem memRead_setDstBase (s : State) (b : Addr) (a : Nat) : memRead (s.setDstBase b) a = memRead s a := rfl

/-- Replacing the destination of a command leaves the slots that are not its destination (R23). -/
theorem State.slot_setSlot_destination {i : Instr} {gd g : Slot} (hd : destinationOf i = some gd)
    (hg : destinationOf i ≠ some g) (s : State) (x : Option Grid) : (s.setSlot gd x).slot g = s.slot g :=
  State.slot_setSlot_of_ne _ _ _ _ fun e => hg (e ▸ hd)

@[simp] theorem State.valid_advance (s : State) (g : Slot) : s.advance.valid g = s.valid g := by
  simp [State.valid]

@[simp] theorem State.valid_enterFault (s : State) (c : Cause) (g : Slot) : (s.enterFault c).valid g = s.valid g := by
  simp [State.valid]

@[simp] theorem State.valid_setRngPos (s : State) (n : Nat) (g : Slot) : (s.setRngPos n).valid g = s.valid g := by
  simp [State.valid]

theorem State.valid_setSlot (s : State) (g : Slot) (x : Option Grid) (h : Slot) :
    (s.setSlot g x).valid h = if h = g then x.isSome else s.valid h := by
  rw [State.valid, State.slot_setSlot]
  exact apply_ite ..

section
variable {i : Instr} {s u : State}

/-- Before `pc` moves on, a completing command has changed no register of the control state (R26, R172). -/
theorem Update.control (hu : Update i s u) : u.pc = s.pc ∧ u.fault = s.fault ∧ u.fpc = s.fpc := by
  cases hu <;> simp

/-- A completing command changes no slot but its destination (R23, R61). -/
theorem Update.slot_eq (hu : Update i s u) {g : Slot} (hg : destinationOf i ≠ some g) : u.slot g = s.slot g := by
  cases hu with
  | res | srcBase | dstBase | buf => simp
  | slot hd s x => exact State.slot_setSlot_destination hd hg s _
  | share gd w h s n x => rw [State.slot_setSlot_destination rfl hg, State.slot_setRngPos]

/-- A completing command clears no valid bit (R27). -/
theorem Update.valid (hu : Update i s u) {g : Slot} (hg : s.valid g = true) : u.valid g = true := by
  cases hu with
  | res | srcBase | dstBase | buf => simpa [State.valid] using hg
  | slot | share => simp [State.valid_setSlot, hg]

end

/-- Settles O39: the faults keep every piece, and each update that completes a command writes the piece its command
names. -/
theorem onlyTheNamedCommandWritesEachPiece : Obligations.OnlyTheNamedCommandWritesEachPiece := by
  intro i s t h
  cases execCase i s with
  | completes u hu e =>
    cases e.symm.trans h
    have hslot : ∀ g, destinationOf i ≠ some g → u.advance.slot g = s.slot g := fun g hg => by
      rw [State.slot_advance, hu.slot_eq hg]
    cases hu with
    | res | srcBase | dstBase | buf => simp
    | slot | share => simpa using hslot
  | faults c hc e =>
    cases e.symm.trans h
    simp
  | exhausts gd width height hi e =>
    cases e.symm.trans h
    have hslot : ∀ g, destinationOf i ≠ some g →
        ((s.setRngPos (rngEnd s.rng s.rngPos)).setSlot gd none).slot g = s.slot g := fun g hg => by
      rw [State.slot_setSlot_destination (hi ▸ rfl) hg, State.slot_setRngPos]
    simpa [hi] using hslot

/-- Settles O40: completing and the other faults keep every valid bit, and exhaustion clears its slot's bit only. -/
theorem onlyExhaustionClearsAValidBit : Obligations.OnlyExhaustionClearsAValidBit := by
  intro i s t g h hs ht
  cases execCase i s with
  | completes u hu e =>
    cases e.symm.trans h
    rw [State.valid_advance, hu.valid hs] at ht
    cases ht
  | faults c hc e =>
    cases e.symm.trans h
    rw [State.valid_enterFault, hs] at ht
    cases ht
  | exhausts gd width height hi e =>
    cases e.symm.trans h
    by_cases hg : g = gd
    · exact ⟨width, height, hg ▸ hi, rfl⟩
    · simp [State.valid_setSlot, hg, hs] at ht

/-! The step -/

/-- A halted core takes no step (R26, R172). -/
theorem step_of_halted {s : State} (hf : s.fault ≠ 0) : step s = .fault .halted := by
  rw [step, fetch_of_halted hf]

/-- A run that has ended takes no step (R26, R203). -/
theorem step_of_end {s : State} (hf : s.fault = 0) (hl : s.prog.length < 4294967296)
    (he : s.pc.toNat = s.prog.length) : step s = .fault .runEnded := by
  rw [step, fetch_of_end hf hl he]

/-- Settles O7. -/
theorem noStepWhenHaltedOrEnded : Obligations.NoStepWhenHaltedOrEnded :=
  fun _ => ⟨step_of_halted, step_of_end⟩

/-- Settles O6: the fetch finds the word at `pc`. -/
theorem stepRunsTheDecodedCommand : Obligations.StepRunsTheDecodedCommand := by
  intro s w i hf hl hw hi
  rw [step, fetch_of_command hf hl hw]
  simp only [hi]

/-- A word that is no command makes the step take the fault IllegalCommand (R82, R173). -/
theorem step_of_illegal {s : State} {w : Word} {e : IllegalWord} (hf : s.fault = 0)
    (hl : s.prog.length < 4294967296) (hw : s.prog[s.pc.toNat]? = some w) (he : decode w = .illegal e) :
    step s = .next (s.enterFault .illegalCommand) := by
  rw [step, fetch_of_command hf hl hw]
  simp only [he]
  rfl

/-- Settles O8, by the three ends of a command. -/
theorem commandCompletesOrTakesOneFault : Obligations.CommandCompletesOrTakesOneFault := by
  intro i s hf
  cases execCase i s with
  | completes u hu e =>
    obtain ⟨hpc, hfault, hfpc⟩ := hu.control
    exact ⟨_, e, .inl ⟨hfault.trans hf, hfpc, congrArg (· + 1) hpc⟩⟩
  | faults c hc e =>
    exact ⟨_, e, .inr ⟨c, rfl, rfl, rfl, step_of_halted (enterFault_fault_ne_zero _ _), fun _ => rfl,
      fun h => absurd h hc⟩⟩
  | exhausts gd w h hi e =>
    refine ⟨_, e, .inr ⟨.rngExhausted, rfl, ?_, ?_, step_of_halted (enterFault_fault_ne_zero _ _),
      fun h => absurd rfl h, fun _ => ?_⟩⟩
    · simp
    · simp
    · obtain ⟨-, -, -, -, -, -, -, -, hslot⟩ := onlyTheNamedCommandWritesEachPiece i s _ e
      simpa using hslot

/-! The run -/

/-- A core that is not halted and has a command left takes a step, which keeps `prog` and halts the core or moves `pc`
on by one (R26). -/
theorem step_of_pc_lt {s : State} (hf : s.fault = 0) (hl : s.prog.length < 4294967296)
    (hpc : s.pc.toNat < s.prog.length) :
    ∃ t, step s = .next t ∧ t.prog = s.prog ∧ (t.fault ≠ 0 ∨ t.pc.toNat = s.pc.toNat + 1) := by
  have hw := List.getElem?_eq_getElem hpc
  cases hi : decode s.prog[s.pc.toNat] with
  | illegal e => exact ⟨_, step_of_illegal hf hl hw hi, rfl, .inl (enterFault_fault_ne_zero _ _)⟩
  | command i =>
    rw [stepRunsTheDecodedCommand s _ i hf hl hw hi]
    obtain ⟨t, e, hend⟩ := commandCompletesOrTakesOneFault i s hf
    obtain ⟨-, hprog, -⟩ := onlyTheNamedCommandWritesEachPiece i s t e
    refine ⟨t, e, hprog, ?_⟩
    rcases hend with ⟨-, -, hnext⟩ | ⟨c, hc, -⟩
    · rw [hnext]
      right
      bv_omega
    · exact .inl (hc ▸ causeCode_ne_zero c)

/-- The first step of a run. -/
theorem run_succ_of_step {s t : State} (h : step s = .next t) (k : Nat) : core.run (k + 1) s = core.run k t := by
  have hstep : core.step s = .next t := h
  simp only [Host.Core.run, hstep]

/-- Settles O47, by induction on the number of commands left. -/
theorem everyRunEnds : Obligations.EveryRunEnds := by
  intro s hl hle
  induction hn : s.prog.length - s.pc.toNat generalizing s with
  | zero =>
    by_cases hf : s.fault = 0
    · have he : s.pc.toNat = s.prog.length := by omega
      exact ⟨0, s, Nat.le_refl 0, rfl, .inr ⟨(final_iff s).2 ⟨hf, he⟩, step_of_end hf hl he⟩⟩
    · exact ⟨0, s, Nat.le_refl 0, rfl, .inl ⟨hf, step_of_halted hf⟩⟩
  | succ n ih =>
    by_cases hf : s.fault = 0
    · obtain ⟨t, hstep, hprog, hhalt | hpc⟩ := step_of_pc_lt hf hl (by omega)
      · exact ⟨1, t, by omega, run_succ_of_step hstep 0, .inl ⟨hhalt, step_of_halted hhalt⟩⟩
      · have hlen : t.prog.length = s.prog.length := congrArg List.length hprog
        obtain ⟨k, t', hk, hrun, hend⟩ := ih t (by omega) (by omega) (by omega)
        exact ⟨k + 1, t', by omega, (run_succ_of_step hstep k).trans hrun, hend⟩
    · exact ⟨0, s, Nat.zero_le _, rfl, .inl ⟨hf, step_of_halted hf⟩⟩

/-! Reset -/

/-- Settles O45: the reset event writes the registers and the slots only. -/
theorem resetKeepsTheEnvironment : Obligations.ResetKeepsTheEnvironment := by
  intro s t h
  cases h
  exact ⟨fun _ => rfl, rfl, rfl, rfl, rfl, rfl⟩

end Sys2Proof.Machine
end

section
/-!
PROOFS of the family 20_memory.md: FRBG writes its bytes in one piece (`exec_frbg_cases`), and the loop of R143 writes
them one at a time. The loop, started anywhere, ends in the memory that holds its values and differs from the starting
one at visited addresses only; FRBG's memory is that one, and canonical memories that hold the same bytes are equal.
-/

namespace Sys2Proof.Machine

/-! The loop of R143 -/

/-- `MemWrite` writes one byte and no other (R51). -/
theorem bufLookup_memWrite (s : State) (a : Nat) (v : Byte) (b : Nat) :
    bufLookup (memWrite s a v).buf b = if b = a then some v else bufLookup s.buf b := by
  split
  · next h => exact h ▸ bufLookup_bufWrite_inside s.buf a [v] 0 Nat.one_pos
  · next h => exact bufLookup_bufWrite_outside s.buf a [v] b (Nat.lt_or_gt_of_ne h)

/-- The loop ends in the canonical memory `m` when `m` holds the value of every visited place, and every address that
`m` and `BUF` differ at is visited. No order of the places is assumed, and a place may be visited again. -/
theorem rgbLoop_eq_setBuf {x : Grid} {m : Memory} (hm : Memory.wf m) (ps : List (Nat × Nat × Nat)) (s : State)
    (hs : Memory.wf s.buf)
    (hval : ∀ p ∈ ps, bufLookup m (rgbAddr s x.width p.1 p.2.1 p.2.2) = some (intensityOfBit (x.cell p.1 p.2.1)))
    (hrest : ∀ a, bufLookup s.buf a = bufLookup m a ∨ ∃ p ∈ ps, rgbAddr s x.width p.1 p.2.1 p.2.2 = a) :
    rgbLoop x ps s = s.setBuf m := by
  induction ps generalizing s with
  | nil =>
    have hbuf : s.buf = m := Memory.ext_lookup hs hm fun a => by simpa using hrest a
    exact hbuf ▸ rfl
  | cons p ps ih =>
    obtain ⟨hhead, htail⟩ := List.forall_mem_cons.1 hval
    refine ih (memWrite s _ _) (bufWrite_wf hs _ _) htail fun a => ?_
    rw [bufLookup_memWrite]
    split
    · next ha => exact .inl (ha ▸ hhead.symm)
    · next ha =>
      exact (hrest a).imp_right fun hvisit => ((List.exists_mem_cons_iff ..).1 hvisit).resolve_left (Ne.symm ha)

/-! The memory FRBG leaves -/

/-- Every offset of the RGB buffer is that of one channel of one pixel (R144). -/
theorem exists_rgbOffset {w h n : Nat} (hn : n < 3 * w * h) :
    ∃ row col ch, row < h ∧ col < w ∧ ch < 3 ∧ 3 * (row * w + col) + ch = n := by
  have hpix : n / 3 < w * h := Nat.div_lt_of_lt_mul (by rwa [← Nat.mul_assoc])
  have hw : 0 < w := Nat.pos_of_mul_pos_right (Nat.zero_lt_of_lt hpix)
  refine ⟨n / 3 / w, n / 3 % w, n % 3, Nat.div_lt_of_lt_mul hpix, Nat.mod_lt _ hw, Nat.mod_lt _ (by decide), ?_⟩
  rw [Nat.div_add_mod', Nat.div_add_mod]

/-- In the memory FRBG leaves, channel `ch` of pixel (col, row) holds that pixel's intensity (R143, R144). -/
theorem bufLookup_bufWrite_rgbBytes (s : State) {x : Grid} {row col ch : Nat} (hr : row < x.height) (hc : col < x.width)
    (hch : ch < 3) :
    bufLookup (bufWrite s.buf s.dstBase.toNat (rgbBytes x)) (rgbAddr s x.width row col ch) =
      some (intensityOfBit (x.cell row col)) := by
  obtain ⟨hlt, hbyte⟩ := List.getElem?_eq_some_iff.1 (rgbBytes_getElem? x row col ch hr hc hch)
  exact hbyte ▸ bufLookup_bufWrite_inside s.buf _ _ _ hlt

/-- At an address that is no channel of a pixel FRBG leaves what `BUF` held (R143, R144). -/
theorem bufLookup_bufWrite_rgbBytes_or_rgbAddr (s : State) (x : Grid) (a : Nat) :
    bufLookup s.buf a = bufLookup (bufWrite s.buf s.dstBase.toNat (rgbBytes x)) a ∨
      ∃ row col ch, row < x.height ∧ col < x.width ∧ ch < 3 ∧ rgbAddr s x.width row col ch = a := by
  by_cases ha : a < s.dstBase.toNat ∨ s.dstBase.toNat + (rgbBytes x).length ≤ a
  · exact .inl (bufLookup_bufWrite_outside _ _ _ _ ha).symm
  · rw [rgbBytes_length] at ha
    obtain ⟨row, col, ch, hr, hc, hch, hoff⟩ :=
      exists_rgbOffset (w := x.width) (h := x.height) (n := a - s.dstBase.toNat) (by omega)
    exact .inr ⟨row, col, ch, hr, hc, hch, by rw [rgbAddr, hoff]; omega⟩

/-- Settles O35: the visited places are the channels of the pixels, and FRBG's memory is what the loop ends in. -/
theorem frbgIsTheMemWriteLoopInAnyOrder : Obligations.FrbgIsTheMemWriteLoopInAnyOrder := by
  intro s gs x ps hx hwf hin hps
  have hloop : rgbLoop x ps s = s.setBuf (bufWrite s.buf s.dstBase.toNat (rgbBytes x)) := by
    refine rgbLoop_eq_setBuf (bufWrite_wf hwf _ _) ps s hwf (fun ⟨row, col, ch⟩ hp => ?_) fun a => ?_
    · obtain ⟨hr, hc, hch⟩ := (hps row col ch).1 hp
      exact bufLookup_bufWrite_rgbBytes s hr hc hch
    · refine (bufLookup_bufWrite_rgbBytes_or_rgbAddr s x a).imp_right ?_
      rintro ⟨row, col, ch, hr, hc, hch, ha⟩
      exact ⟨(row, col, ch), (hps row col ch).2 ⟨hr, hc, hch⟩, ha⟩
  rcases exec_frbg_cases gs s with ⟨hnone, -⟩ | ⟨y, hy, hout, -⟩ | ⟨y, hy, -, e⟩
  · cases hnone.symm.trans hx
  · cases hy.symm.trans hx
    exact absurd hin (Nat.not_le_of_lt hout)
  · cases hy.symm.trans hx
    rw [hloop, e]

end Sys2Proof.Machine
end

section
/-!
PROOFS of the family 30_encoding.md. A row of R72 fixes two fields of its words, the opcode and one more (`OnRow`):
that is what `w AND mask = match` says (`matches_opcodeRow_iff`), it decides what a word decodes to
(`decode_eq_command_iff`), and a command's number is that of the words of its row that hold its operands
(`onRow_and_withOperandsOf_iff`).
-/

namespace Sys2Proof

/-! The fields a row of R72 fixes -/

/-- A field of the word (R71) with the value a row of R72 demands of it. -/
structure FixedField where
  lo : Nat
  len : Nat
  value : Nat

/-- What the row of a command fixes beside the opcode: the must-be-zero bits of its format (R71), in format A together
with `sel` (bit 27) above them. -/
def fixedField : Instr → FixedField
  | .inv _ => ⟨1, 27, 0⟩
  | .settile _ _ _ _ _ => ⟨0, 4, 0⟩
  | .randshare _ _ _ => ⟨0, 6, 0⟩
  | .encode _ _ _ => ⟨0, 22, 0⟩
  | .recover _ _ _ => ⟨0, 22, 0⟩
  | .tobg _ _ _ => ⟨0, 6, 0⟩
  | .frbg _ => ⟨0, 26, 0⟩
  | .setsrc _ => ⟨24, 4, 0⟩
  | .setdst _ => ⟨24, 4, 8⟩
  | .gnew _ _ _ => ⟨0, 6, 0⟩

/-- The word has the opcode and the fixed field of the command's row. -/
def OnRow (i : Instr) (w : Word) : Prop :=
  field w 28 4 = opcode i ∧ field w (fixedField i).lo (fixedField i).len = (fixedField i).value

/-! Rows by mask and match (R72) -/

/-- Masking a number with the ones of a field leaves that field in its place. -/
theorem and_ones_eq_field (w : Word) (lo len : Nat) :
    w.toNat &&& 2 ^ lo * (2 ^ len - 1) = 2 ^ lo * field w lo len := by
  rw [field, ← Nat.and_two_pow_sub_one_eq_mod, ← Nat.shiftRight_eq_div_pow]
  refine Nat.eq_of_testBit_eq fun k => ?_
  simp only [Nat.testBit_and, Nat.testBit_two_pow_mul, Nat.testBit_shiftRight]
  by_cases hk : lo ≤ k
  · simp [hk]
  · simp [hk]

/-- Under a mask of the opcode and of one field below it, a word equals a pattern exactly when both fields do. -/
theorem and_mask_eq_iff_fields (w : Word) {mask pattern : Word} {op lo len v : Nat}
    (hfits : 2 ^ lo * 2 ^ len ≤ 2 ^ 28) (hv : v < 2 ^ len)
    (hmask : mask.toNat = 2 ^ 28 * (2 ^ 4 - 1) ||| 2 ^ lo * (2 ^ len - 1))
    (hpattern : pattern.toNat = 2 ^ 28 * op + 2 ^ lo * v) :
    w &&& mask = pattern ↔ field w 28 4 = op ∧ field w lo len = v := by
  have below {n : Nat} (hn : n < 2 ^ len) : 2 ^ lo * n < 2 ^ 28 :=
    (Nat.mul_lt_mul_of_pos_left hn (Nat.two_pow_pos lo)).trans_le hfits
  have hfield := below (field_lt w lo len)
  have hvalue := below hv
  have hand : (w &&& mask).toNat = 2 ^ 28 * field w 28 4 + 2 ^ lo * field w lo len := by
    rw [BitVec.toNat_and, hmask, Nat.and_or_distrib_left, and_ones_eq_field, and_ones_eq_field,
      Nat.two_pow_add_eq_or_of_lt hfield]
  rw [← BitVec.toNat_inj, hand, hpattern, ← Nat.mul_right_inj (Nat.two_pow_pos lo).ne' (b := field w lo len)]
  omega

/-- `w AND mask = match` says that the word is on the row (R72). -/
theorem matches_opcodeRow_iff (i : Instr) (w : Word) : (opcodeRow i).Matches w ↔ OnRow i w := by
  cases i <;> simp only [OpcodeRow.Matches, OnRow, opcodeRow, opcode, fixedField] <;>
    exact and_mask_eq_iff_fields w (by decide) (by decide) (by decide) (by decide)

/-- The rows of the table are the rows of the commands (R72). -/
theorem mem_opcodeTable_iff (r : OpcodeRow) : r ∈ opcodeTable ↔ ∃ i, opcodeRow i = r := by
  constructor
  · simp only [opcodeTable, List.mem_cons, List.not_mem_nil, or_false]
    rintro (h | h | h | h | h | h | h | h | h | h) <;> exact ⟨_, h.symm⟩
  · rintro ⟨i, rfl⟩
    cases i <;> simp [opcodeTable, opcodeRow]

/-! The operands of a word (R71, R80) -/

theorem slotField_eq_iff (w : Word) (lo : Nat) (g : Slot) : slotField w lo = g ↔ field w lo 2 = slotNum g := by
  constructor
  · rintro rfl
    exact (slotNum_slotOfNat (field_lt w lo 2)).symm
  · intro h
    rw [slotField, h, slotOfNat_slotNum]

theorem bitField_eq_iff (w : Word) (lo : Nat) (b : Bit) : bitField w lo = b ↔ field w lo 1 = bitNum b := by
  constructor
  · rintro rfl
    exact (bitNum_bitOfNat (field_lt w lo 1)).symm
  · intro h
    rw [bitField, h, bitOfNat_bitNum]

/-- The address of format A (R71, R80). -/
def addrField (w : Word) : Addr := BitVec.ofNat 24 (field w 0 24)

theorem addrField_eq_iff (w : Word) (a : Addr) : addrField w = a ↔ field w 0 24 = a.toNat := by
  rw [addrField, ← BitVec.toNat_inj, BitVec.toNat_ofNat, Nat.mod_eq_of_lt (field_lt w 0 24)]

/-- The command of the same row whose operands are the fields of `w` (R71, R80). -/
def withOperandsOf (w : Word) : Instr → Instr
  | .inv _ => .inv (bitField w 0)
  | .settile _ _ _ _ _ => .settile (slotField w 26) (field w 16 10) (field w 6 10) (bitField w 5) (bitField w 4)
  | .randshare _ _ _ => .randshare (slotField w 26) (field w 16 10) (field w 6 10)
  | .encode _ _ _ => .encode (slotField w 26) (slotField w 24) (slotField w 22)
  | .recover _ _ _ => .recover (slotField w 26) (slotField w 24) (slotField w 22)
  | .tobg _ _ _ => .tobg (slotField w 26) (field w 16 10) (field w 6 10)
  | .frbg _ => .frbg (slotField w 26)
  | .setsrc _ => .setsrc (addrField w)
  | .setdst _ => .setdst (addrField w)
  | .gnew _ _ _ => .gnew (slotField w 26) (field w 16 10) (field w 6 10)

@[simp] theorem opcodeRow_withOperandsOf (w : Word) (i : Instr) : opcodeRow (withOperandsOf w i) = opcodeRow i := by
  cases i <;> rfl

/-! Decoding by rows -/

/-- `sel` and the must-be-zero bits of format A are bits 27:24 together (R71). -/
theorem field_sel_and_zero_iff (w : Word) {sel : Nat} :
    field w 24 4 = 8 * sel ↔ field w 24 3 = 0 ∧ field w 27 1 = sel := by
  simp only [field]
  omega

/-- A word on a row decodes to the command of that row that has the word's operands (R72). -/
theorem decode_of_onRow {i : Instr} {w : Word} (h : OnRow i w) : decode w = .command (withOperandsOf w i) := by
  obtain ⟨op, fixed⟩ := h
  cases i
  case setsrc =>
    obtain ⟨zero, sel⟩ := (field_sel_and_zero_iff w (sel := 0)).1 fixed
    simp [decode, withOperandsOf, addrField, op, opcode, zero, sel]
  case setdst =>
    obtain ⟨zero, sel⟩ := (field_sel_and_zero_iff w (sel := 1)).1 fixed
    simp [decode, withOperandsOf, addrField, op, opcode, zero, sel]
  all_goals
    simp only [fixedField] at fixed
    simp [decode, withOperandsOf, op, opcode, fixed]

/-- Only the words on its row decode to a command (R72). -/
theorem onRow_of_decode {i : Instr} {w : Word} (h : decode w = .command i) : OnRow i w := by
  cases decode_cases w with
  | reservedOpcode _ eq => exact nomatch eq.symm.trans h
  | reservedBits _ _ _ eq => exact nomatch eq.symm.trans h
  | setsrc op zero eq =>
    cases eq.symm.trans h
    exact ⟨op, (field_sel_and_zero_iff w (sel := 0)).2 zero⟩
  | setdst op zero eq =>
    cases eq.symm.trans h
    exact ⟨op, (field_sel_and_zero_iff w (sel := 1)).2 zero⟩
  | _ op zero eq =>
    cases eq.symm.trans h
    exact ⟨op, zero⟩

/-- What decodes to a command: the words on its row that hold its operands (R72, R71, R80). -/
theorem decode_eq_command_iff (w : Word) (i : Instr) :
    decode w = .command i ↔ OnRow i w ∧ withOperandsOf w i = i := by
  constructor
  · intro h
    have hrow := onRow_of_decode h
    exact ⟨hrow, Decoded.command.inj ((decode_of_onRow hrow).symm.trans h)⟩
  · rintro ⟨hrow, hops⟩
    rw [decode_of_onRow hrow, hops]

/-! The number of a word, format by format (R71) -/

section
variable (w : Word)

theorem formatB_iff (b : Bit) :
    (field w 28 4 = 1 ∧ field w 1 27 = 0) ∧ bitField w 0 = b ↔ w.toNat = 1 * 2 ^ 28 + bitNum b := by
  have hw := w.isLt
  have hb := bitNum_lt b
  simp only [bitField_eq_iff, field]
  omega

theorem formatT_iff (g : Slot) (row col : Nat) (lead foll : Bit) :
    (field w 28 4 = 2 ∧ field w 0 4 = 0) ∧
        slotField w 26 = g ∧ field w 16 10 = row ∧ field w 6 10 = col ∧ bitField w 5 = lead ∧ bitField w 4 = foll ↔
      (row < 1024 ∧ col < 1024) ∧ w.toNat = 2 * 2 ^ 28 +
        (slotNum g * 2 ^ 26 + row * 2 ^ 16 + col * 2 ^ 6 + bitNum lead * 2 ^ 5 + bitNum foll * 2 ^ 4) := by
  have hw := w.isLt
  have hg := slotNum_lt g
  have hlead := bitNum_lt lead
  have hfoll := bitNum_lt foll
  simp only [slotField_eq_iff, bitField_eq_iff, field]
  omega

theorem formatD_iff {op : Nat} (hop : op < 16) (g : Slot) (width height : Nat) :
    (field w 28 4 = op ∧ field w 0 6 = 0) ∧ slotField w 26 = g ∧ field w 16 10 = width ∧ field w 6 10 = height ↔
      (width < 1024 ∧ height < 1024) ∧
        w.toNat = op * 2 ^ 28 + (slotNum g * 2 ^ 26 + width * 2 ^ 16 + height * 2 ^ 6) := by
  have hw := w.isLt
  have hg := slotNum_lt g
  simp only [slotField_eq_iff, field]
  omega

theorem formatG3_iff {op : Nat} (hop : op < 16) (gd ga gb : Slot) :
    (field w 28 4 = op ∧ field w 0 22 = 0) ∧ slotField w 26 = gd ∧ slotField w 24 = ga ∧ slotField w 22 = gb ↔
      w.toNat = op * 2 ^ 28 + (slotNum gd * 2 ^ 26 + slotNum ga * 2 ^ 24 + slotNum gb * 2 ^ 22) := by
  have hw := w.isLt
  have hd := slotNum_lt gd
  have ha := slotNum_lt ga
  have hb := slotNum_lt gb
  simp only [slotField_eq_iff, field]
  omega

theorem formatG1_iff (g : Slot) :
    (field w 28 4 = 7 ∧ field w 0 26 = 0) ∧ slotField w 26 = g ↔ w.toNat = 7 * 2 ^ 28 + slotNum g * 2 ^ 26 := by
  have hw := w.isLt
  have hg := slotNum_lt g
  simp only [slotField_eq_iff, field]
  omega

theorem formatA_iff {sel : Nat} (hsel : sel < 2) (a : Addr) :
    (field w 28 4 = 8 ∧ field w 24 4 = 8 * sel) ∧ addrField w = a ↔
      w.toNat = 8 * 2 ^ 28 + (2 ^ 27 * sel + a.toNat) := by
  have hw := w.isLt
  have ha := a.isLt
  simp only [addrField_eq_iff, field]
  omega

end

/-- The words on a command's row that hold its operands have the command's number, and only they; an operand that is
read from its field fits it (R70, R71). -/
theorem onRow_and_withOperandsOf_iff (w : Word) (i : Instr) :
    OnRow i w ∧ withOperandsOf w i = i ↔ i.wellFormed = true ∧ w.toNat = encodeNum i := by
  cases i <;>
    simp only [OnRow, opcode, fixedField, withOperandsOf, Instr.inv.injEq, Instr.settile.injEq, Instr.randshare.injEq,
      Instr.encode.injEq, Instr.recover.injEq, Instr.tobg.injEq, Instr.frbg.injEq, Instr.setsrc.injEq,
      Instr.setdst.injEq, Instr.gnew.injEq, Instr.wellFormed, Bool.and_eq_true, fitsTen_iff, true_and, encodeNum,
      operandBits]
  case inv b => exact formatB_iff w b
  case settile g row col lead foll => exact formatT_iff w g row col lead foll
  case randshare gd width height => exact formatD_iff w (by decide) gd width height
  case encode gd gs gr => exact formatG3_iff w (by decide) gd gs gr
  case recover gd ga gb => exact formatG3_iff w (by decide) gd ga gb
  case tobg gd width height => exact formatD_iff w (by decide) gd width height
  case frbg gs => exact formatG1_iff w gs
  case setsrc addr => simpa using formatA_iff w (sel := 0) (by decide) addr
  case setdst addr => simpa using formatA_iff w (sel := 1) (by decide) addr
  case gnew gd width height => exact formatD_iff w (by decide) gd width height

/-- The operand bits of every well-formed command lie below its opcode (R71). -/
theorem encodingFits (i : Instr) : Laws.EncodingFits.Statement i := by
  cases i with
  | inv b => exact Laws.EncodingFits.inv b
  | settile g row col lead foll => exact Laws.EncodingFits.settile g row col lead foll
  | randshare gd width height => exact Laws.EncodingFits.randshare gd width height
  | encode gd gs gr => exact Laws.EncodingFits.encode gd gs gr
  | recover gd ga gb => exact Laws.EncodingFits.recover gd ga gb
  | tobg gd width height => exact Laws.EncodingFits.tobg gd width height
  | frbg gs => exact Laws.EncodingFits.frbg gs
  | setsrc addr => exact Laws.EncodingFits.setsrc addr
  | setdst addr => exact Laws.EncodingFits.setdst addr
  | gnew gd width height => exact Laws.EncodingFits.gnew gd width height

/-- The word of a well-formed command has the command's number: it fits 32 bits (R70). -/
theorem toNat_encode {i : Instr} (h : i.wellFormed = true) : (encode i).toNat = encodeNum i := by
  obtain ⟨hops, -, hop⟩ := encodingFits i h
  have hlt : encodeNum i < 2 ^ 32 := by
    rw [encodeNum]
    omega
  rw [encode, BitVec.toNat_ofNat, Nat.mod_eq_of_lt hlt]

/-! The statements -/

/-- A word decodes to a command exactly when the command is well-formed and its number is the word's. -/
theorem decode_eq_command_iff_encodeNum (w : Word) (i : Instr) :
    decode w = .command i ↔ i.wellFormed = true ∧ w.toNat = encodeNum i :=
  (decode_eq_command_iff w i).trans (onRow_and_withOperandsOf_iff w i)

/-- Settles O1: the encoding has the command's number. -/
theorem decodeOfEncodeIsTheCommand : Obligations.DecodeOfEncodeIsTheCommand :=
  fun i h => (decode_eq_command_iff_encodeNum (encode i) i).2 ⟨h, toNat_encode h⟩

/-- Settles O2: a word is determined by its number. -/
theorem encodeOfDecodeIsTheWord : Obligations.EncodeOfDecodeIsTheWord := by
  intro w i h
  obtain ⟨hwf, hnum⟩ := (decode_eq_command_iff_encodeNum w i).1 h
  exact ⟨hwf, BitVec.eq_of_toNat_eq ((toNat_encode hwf).trans hnum.symm)⟩

/-- A word that matches a row of the table decodes to a command of that row (R72). -/
theorem exists_decode_of_matches {r : OpcodeRow} (hr : r ∈ opcodeTable) {w : Word} (h : r.Matches w) :
    ∃ i, decode w = .command i ∧ opcodeRow i = r := by
  obtain ⟨i, rfl⟩ := (mem_opcodeTable_iff r).1 hr
  exact ⟨withOperandsOf w i, decode_of_onRow ((matches_opcodeRow_iff i w).1 h), opcodeRow_withOperandsOf w i⟩

/-- Settles O3: a word decodes to one command, which has one row. -/
theorem decodeFollowsMaskAndMatch : Obligations.DecodeFollowsMaskAndMatch := by
  intro w
  refine ⟨fun i h => (matches_opcodeRow_iff i w).2 (onRow_of_decode h), fun r hr h => exists_decode_of_matches hr h,
    fun r hr r' hr' h h' => ?_⟩
  obtain ⟨i, hi, rfl⟩ := exists_decode_of_matches hr h
  obtain ⟨i', hi', rfl⟩ := exists_decode_of_matches hr' h'
  cases hi.symm.trans hi'
  rfl

/-- To know what the word of a well-formed command decodes to, it is enough to encode the command. -/
theorem decode_and_encode_of_encode_eq {i : Instr} {w : Word} (hwf : i.wellFormed = true) (h : encode i = w) :
    decode w = .command i ∧ encode i = w :=
  ⟨h ▸ decodeOfEncodeIsTheCommand i hwf, h⟩

/-- Settles O4: each command is encoded, and the round trip gives the other direction. -/
theorem workedEncodingsDecode : Obligations.WorkedEncodingsDecode := by
  refine ⟨?_, ?_, ?_, ?_, ?_, ?_, ?_, ?_, ?_, ?_⟩ <;> exact decode_and_encode_of_encode_eq rfl rfl

end Sys2Proof
end

section
/-!
PROOFS of the family 41_tile_codec.md: INV and its words by the row of R72, and `set_tile` (R101) by one lemma that
says every cell it leaves (`setTile_cell?`). A loop of `set_tile` that never disturbs a grid `y` ends in `y`, wherever
it starts, once it has visited every tile at which the two differ (`AgreesOutsideTiles`); the loop of R110 is one.
-/

namespace Sys2Proof.Machine

/-! INV -/

/-- Settles O10, bit by bit. -/
theorem inverseIsTheComplement : Obligations.InverseIsTheComplement := by
  refine ⟨rfl, rfl, fun b => ?_⟩
  cases b with
  | false => exact ⟨rfl, rfl, rfl⟩
  | true => exact ⟨rfl, rfl, rfl⟩

/-- The opcode of a word is its four highest bits (R71). -/
theorem field_opcode_eq_shift (w : Word) : field w 28 4 = (w >>> 28).toNat := by
  have hw := w.isLt
  rw [field, BitVec.toNat_ushiftRight, Nat.shiftRight_eq_div_pow, Nat.mod_eq_of_lt (by omega)]

/-- The operand of INV is bit 0 of the word (R71, R80). -/
theorem bitField_zero_eq_getLsbD (w : Word) : bitField w 0 = w.getLsbD 0 := by
  simp [bitField, bitOfNat, field, BitVec.getLsbD, Nat.testBit_zero]

/-- A word is an INV with the operand `w[0]` exactly when it matches INV's row (R72, R102). -/
theorem matches_inv_iff_decode (w : Word) :
    w &&& 0xFFFFFFFE = 0x10000000 ↔ decode w = .command (.inv (w.getLsbD 0)) := by
  have hoperand : withOperandsOf w (.inv (w.getLsbD 0)) = .inv (w.getLsbD 0) :=
    congrArg Instr.inv (bitField_zero_eq_getLsbD w)
  rw [decode_eq_command_iff, and_iff_left hoperand]
  exact matches_opcodeRow_iff (.inv (w.getLsbD 0)) w

/-- A word of opcode 1 with a must-be-zero bit set is illegal (R82, R102). -/
theorem decode_eq_illegal_of_inv_bits {w : Word} (hop : w >>> 28 = 1) (hbits : w &&& 0x0FFFFFFE ≠ 0) :
    decode w = .illegal (.reservedBits 1) := by
  have hone : field w 28 4 = 1 := by
    rw [field_opcode_eq_shift, hop]
    rfl
  have hset : field w 1 27 ≠ 0 := fun hzero => hbits <| BitVec.eq_of_toNat_eq <| by
    have hand := and_ones_eq_field w 1 27
    rw [hzero] at hand
    exact (BitVec.toNat_and ..).trans hand
  cases decode_cases w with
  | inv _ zero _ => exact absurd zero hset
  | reservedBits op is _ eq => rw [eq, ← is, hone]
  | _ => omega

/-- Settles O11, by INV's row, its must-be-zero bits and its one answer. -/
theorem invWritesTheInverse : Obligations.InvWritesTheInverse :=
  ⟨matches_inv_iff_decode, fun _ => decode_eq_illegal_of_inv_bits, exec_inv_eq⟩

/-! The cells `set_tile` leaves -/

/-- Writing a cell of the grid changes that cell and no other. -/
theorem Grid.setCell_cell?_of_lt {x : Grid} (hx : x.wf) {r c : Nat} (hr : r < x.height) (hc : c < x.width) (v : Bit)
    (r' c' : Nat) :
    (x.setCell r c v).cell? r' c' = if r' = r ∧ c' = c then some v else x.cell? r' c' := by
  rw [Grid.setCell_cell?, Grid.cell?_eq_some hx hr hc, Option.map_some]

/-- The position of the tile that holds the cell in row `r`, column `c` (R7). -/
def tilePos (r c : Nat) : Nat × Nat := (2 * (r / 2), 2 * (c / 2))

theorem tilePos_eq_iff {r c row col : Nat} :
    tilePos r c = (row, col) ↔ r = row + r % 2 ∧ c = col + c % 2 := by
  rw [tilePos, Prod.mk.injEq]
  omega

/-- `set_tile` writes the cells of its tile, the leading bit on the diagonal, and no other cell (R101). -/
theorem setTile_cell? {x : Grid} (hx : x.wf) {row col : Nat} (hfit : TileFits x row col) (l f : Bit) (r c : Nat) :
    (setTile x row col l f).cell? r c =
      if tilePos r c = (row, col) then some (tileCell l f (r % 2) (c % 2)) else x.cell? r c := by
  obtain ⟨hrow, hcol, hr, hc⟩ := hfit
  have h1 := Grid.setCell_wf hx row col l
  have h2 := Grid.setCell_wf h1 row (col + 1) f
  have h3 := Grid.setCell_wf h2 (row + 1) col f
  rw [setTile, Grid.setCell_cell?_of_lt h3 hr hc, Grid.setCell_cell?_of_lt h2 hr (by simp; omega),
    Grid.setCell_cell?_of_lt h1 (by simp; omega) hc, Grid.setCell_cell?_of_lt hx (by omega) (by omega)]
  by_cases htile : tilePos r c = (row, col)
  · rw [if_pos htile]
    obtain ⟨hr', hc'⟩ := tilePos_eq_iff.1 htile
    have ha := Nat.mod_two_eq_zero_or_one r
    have hb := Nat.mod_two_eq_zero_or_one c
    generalize r % 2 = a at ha hr' ⊢
    generalize c % 2 = b at hb hc' ⊢
    subst hr' hc'
    rcases ha with rfl | rfl <;> rcases hb with rfl | rfl <;> simp [tileCell]
  · rw [if_neg htile, if_neg, if_neg, if_neg, if_neg] <;>
      · rintro ⟨rfl, rfl⟩
        exact htile (tilePos_eq_iff.2 (by omega))

/-- `set_tile` leaves every cell outside its tile (R101). -/
theorem setTile_cell?_of_ne {x : Grid} (hx : x.wf) {row col : Nat} (hfit : TileFits x row col) (l f : Bit) {r c : Nat}
    (h : tilePos r c ≠ (row, col)) : (setTile x row col l f).cell? r c = x.cell? r c := by
  rw [setTile_cell? hx hfit, if_neg h]

/-- The cell `[a][b]` of the tile that `set_tile` writes (R101). -/
theorem setTile_cell_in_tile {x : Grid} (hx : x.wf) {row col : Nat} (hfit : TileFits x row col) (l f : Bit)
    {a b : Nat} (ha : a < 2) (hb : b < 2) : (setTile x row col l f).cell (row + a) (col + b) = tileCell l f a b := by
  have ⟨hrow, hcol, _, _⟩ := hfit
  have hra : (row + a) % 2 = a := by omega
  have hcb : (col + b) % 2 = b := by omega
  rw [Grid.cell, setTile_cell? hx hfit, if_pos (tilePos_eq_iff.2 ⟨by rw [hra], by rw [hcb]⟩), hra, hcb,
    Option.getD_some]

/-! SETTILE -/

/-- Settles O12: the slot gets the grid that `set_tile` makes. -/
theorem settileWritesItsFourCells : Obligations.SettileWritesItsFourCells := by
  intro s g x row col lead foll hx hwf hrow hcol hr hc
  have hfit : TileFits x row col := ⟨hrow, hcol, hr, hc⟩
  have hcell {a b : Nat} (ha : a < 2) (hb : b < 2) := setTile_cell_in_tile hwf hfit lead foll ha hb
  rcases exec_settile_cases g row col lead foll s with ⟨hnone, -⟩ | ⟨y, hy, hout, -⟩ | ⟨y, hy, -, e⟩
  · cases hnone.symm.trans hx
  · cases hy.symm.trans hx
    exact absurd hfit hout
  · cases hy.symm.trans hx
    refine ⟨_, e, setTile_wf hwf .., rfl, rfl, hcell (a := 0) (b := 0) (by decide) (by decide),
      hcell (a := 0) (b := 1) (by decide) (by decide), hcell (a := 1) (b := 0) (by decide) (by decide),
      hcell (a := 1) (b := 1) (by decide) (by decide), fun r c hother => ?_⟩
    refine setTile_cell?_of_ne hwf hfit lead foll fun htile => hother ?_
    rw [tilePos_eq_iff] at htile
    omega

/-- Settles O13, by the first two answers of SETTILE. -/
theorem settileFaults : Obligations.SettileFaults := by
  intro s g row col lead foll
  rcases exec_settile_cases g row col lead foll s with ⟨hnone, e⟩ | ⟨y, hy, -, e⟩ | ⟨y, hy, hfit, -⟩
  · exact ⟨fun _ => e, fun x hx => nomatch hnone.symm.trans hx⟩
  · exact ⟨fun h => (nomatch hy.symm.trans h), fun _ _ _ => e⟩
  · refine ⟨fun h => (nomatch hy.symm.trans h), fun x hx hout => ?_⟩
    cases hy.symm.trans hx
    omega

/-! Loops of `set_tile` -/

/-- `x` and `y` are grids of one size with the same cells, except in the tiles at the positions `ps`. -/
structure AgreesOutsideTiles (ps : List (Nat × Nat)) (x y : Grid) : Prop where
  wf_left : x.wf
  wf_right : y.wf
  width : x.width = y.width
  height : x.height = y.height
  cells : ∀ r c, tilePos r c ∉ ps → x.cell? r c = y.cell? r c

section
variable {x y : Grid}

/-- With no tile left out the two grids are the same. -/
theorem AgreesOutsideTiles.eq_of_nil (h : AgreesOutsideTiles [] x y) : x = y :=
  Grid.ext_cells h.wf_left h.wf_right h.width h.height fun r c _ _ => by
    rw [Grid.cell, Grid.cell, h.cells r c List.not_mem_nil]

/-- When `y` is as `set_tile` leaves it, the same `set_tile` on `x` makes the two agree on that tile too. -/
theorem AgreesOutsideTiles.setTile {ps : List (Nat × Nat)} {row col : Nat}
    (h : AgreesOutsideTiles ((row, col) :: ps) x y) {l f : Bit} (hfit : TileFits y row col)
    (hy : setTile y row col l f = y) : AgreesOutsideTiles ps (setTile x row col l f) y where
  wf_left := setTile_wf h.wf_left ..
  wf_right := h.wf_right
  width := h.width
  height := h.height
  cells r c hrest := by
    have hfitx : TileFits x row col := by rwa [TileFits, h.width, h.height]
    rw [← hy, setTile_cell? h.wf_left hfitx, setTile_cell? h.wf_right hfit]
    split
    · rfl
    · next hne => exact h.cells r c (List.not_mem_cons_of_ne_of_not_mem hne hrest)

end

/-- A tiled grid is as `set_tile` leaves it, at each of its tiles (R110, R120). -/
theorem setTile_tiledGrid {h w i j : Nat} (lead : Nat → Nat → Bit)
    (hfit : TileFits (tiledGrid h w lead) (2 * i) (2 * j)) :
    setTile (tiledGrid h w lead) (2 * i) (2 * j) (lead i j) (inverse (lead i j)) = tiledGrid h w lead := by
  have hwf := tiledGrid_wf h w lead
  refine Grid.ext_cells (setTile_wf hwf ..) hwf rfl rfl fun r c hr hc => ?_
  rw [Grid.cell, setTile_cell? hwf hfit]
  split
  · next htile =>
    rw [tilePos, Prod.mk.injEq] at htile
    have hi : r / 2 = i := by omega
    have hj : c / 2 = j := by omega
    rw [tiledGrid_cell h w lead r c hr hc, hi, hj, Option.getD_some]
  · rfl

/-- A grid has room for each of its tiles (R101). -/
theorem tileFits_of_lt {x : Grid} {i j : Nat} (hi : i < x.height / 2) (hj : j < x.width / 2) :
    TileFits x (2 * i) (2 * j) := by
  refine ⟨?_, ?_, ?_, ?_⟩ <;> omega

/-! The loop of R110 -/

/-- Drawing from a stream that can deliver `n + 1` more bits takes the next one and leaves `n` (R33). -/
theorem drawBit_of_succ {src : BitSource} {pos n : Nat} (h : rngShort src pos (n + 1) = false) :
    drawBit src pos = some (bitAt src pos, pos + 1) ∧ rngShort src (pos + 1) n = false := by
  cases src with
  | endless number => exact ⟨rfl, rfl⟩
  | finite bits =>
    simp only [drawBit, rngShort, remaining, decide_eq_false_iff_not, Nat.not_lt] at *
    exact ⟨if_neg (by simp; omega), by omega⟩

/-- The loop of R110 ends in the grid `y` when `y` holds, at each visited position, the tile of that position's draw,
and differs from the starting grid in visited tiles only. -/
theorem shareLoop_eq_some {src : BitSource} {x y : Grid} {pos : Nat} {ps : List (Nat × Nat)}
    (hagree : AgreesOutsideTiles ps x y) (hbits : rngShort src pos ps.length = false)
    (htiles : ∀ k row col, ps[k]? = some (row, col) → TileFits y row col ∧
      setTile y row col (bitAt src (pos + k)) (inverse (bitAt src (pos + k))) = y) :
    shareLoop src ps x pos = some (y, pos + ps.length) := by
  induction ps generalizing x pos with
  | nil => rw [hagree.eq_of_nil]; rfl
  | cons p ps ih =>
    obtain ⟨row, col⟩ := p
    obtain ⟨hdraw, hrest⟩ := drawBit_of_succ hbits
    obtain ⟨hfit, hy⟩ := htiles 0 row col rfl
    have htail := ih (hagree.setTile hfit hy) hrest fun k row col hk => by
      rw [Nat.add_right_comm, Nat.add_assoc]
      exact htiles (k + 1) row col hk
    simp only [shareLoop, hdraw]
    rw [Nat.add_zero] at htail
    rw [htail, List.length_cons, Nat.add_right_comm, Nat.add_assoc]

theorem length_tilePositions (w h : Nat) : (tilePositions w h).length = h / 2 * (w / 2) :=
  length_flatMap_range _ _ _ (by simp)

/-- The position of the tile in tile row `i` and tile column `j` is number `i × (width/2) + j` (R111). -/
theorem tilePositions_getElem? {w h i j : Nat} (hi : i < h / 2) (hj : j < w / 2) :
    (tilePositions w h)[i * (w / 2) + j]? = some (2 * i, 2 * j) := by
  rw [tilePositions, getElem?_flatMap_range _ (w / 2) _ (by simp) i j hi hj, List.getElem?_map,
    List.getElem?_range hj, Option.map_some]

/-- Only tiles are visited, each at its own number (R111). -/
theorem exists_tile_of_getElem?_tilePositions {w h k row col : Nat}
    (hk : (tilePositions w h)[k]? = some (row, col)) :
    ∃ i j, i < h / 2 ∧ j < w / 2 ∧ k = i * (w / 2) + j ∧ row = 2 * i ∧ col = 2 * j := by
  have hlt : k < w / 2 * (h / 2) := by
    rw [Nat.mul_comm, ← length_tilePositions]
    exact (List.getElem?_eq_some_iff.1 hk).1
  have hw : 0 < w / 2 := Nat.pos_of_mul_pos_right (Nat.zero_lt_of_lt hlt)
  have hi : k / (w / 2) < h / 2 := Nat.div_lt_of_lt_mul hlt
  have hj : k % (w / 2) < w / 2 := Nat.mod_lt _ hw
  have hnum : k = k / (w / 2) * (w / 2) + k % (w / 2) := (Nat.div_add_mod' ..).symm
  rw [hnum, tilePositions_getElem? hi hj] at hk
  cases hk
  exact ⟨_, _, hi, hj, hnum, rfl, rfl⟩

/-- Two grids of one even size agree outside the tiles that the loops of R110 visit: these are all (R110). -/
theorem agreesOutsideTiles_tilePositions {x y : Grid} (hx : x.wf) (hy : y.wf) (hw : x.width = y.width)
    (hh : x.height = y.height) (hweven : y.width % 2 = 0) (hheven : y.height % 2 = 0) :
    AgreesOutsideTiles (tilePositions y.width y.height) x y where
  wf_left := hx
  wf_right := hy
  width := hw
  height := hh
  cells r c hout := by
    have hno : ¬(r < y.height ∧ c < y.width) := fun ⟨hr, hc⟩ =>
      hout (List.mem_of_getElem? (tilePositions_getElem? (i := r / 2) (j := c / 2) (by omega) (by omega)))
    have hnone {z : Grid} (hz : z.wf) (hzw : z.width = y.width) (hzh : z.height = y.height) : z.cell? r c = none := by
      rwa [← Option.not_isSome_iff_eq_none, Grid.cell?_isSome hz, hzw, hzh]
    rw [hnone hx hw hh, hnone hy rfl rfl]

/-- The loop of R110, from any grid of the size, leaves the share grid and moves on by the number of tiles. -/
theorem shareLoop_tilePositions {src : BitSource} {pos : Nat} {x : Grid} (hx : x.wf) (hweven : x.width % 2 = 0)
    (hheven : x.height % 2 = 0) (hbits : rngShort src pos (tileCount x.width x.height) = false) :
    shareLoop src (tilePositions x.width x.height) x pos =
      some (shareGrid src pos x.width x.height, pos + tileCount x.width x.height) := by
  have hlen : (tilePositions x.width x.height).length = tileCount x.width x.height :=
    (length_tilePositions ..).trans (Nat.mul_comm ..)
  rw [← hlen] at hbits ⊢
  refine shareLoop_eq_some (agreesOutsideTiles_tilePositions hx (shareGrid_wf ..) rfl rfl hweven hheven) hbits
    fun k row col hk => ?_
  obtain ⟨i, j, hi, hj, rfl, rfl, rfl⟩ := exists_tile_of_getElem?_tilePositions hk
  have hfit : TileFits (shareGrid src pos x.width x.height) (2 * i) (2 * j) := tileFits_of_lt hi hj
  exact ⟨hfit, setTile_tiledGrid (fun i j => bitAt src (pos + (i * (x.width / 2) + j))) hfit⟩

/-- Settles O18: RANDSHARE completes with the grid and the position of the loop. -/
theorem randshareIsTheSetTileLoop : Obligations.RandshareIsTheSetTileLoop := by
  intro s gd w h x hw hh hweven hheven hbits hx hxw hxh
  subst hxw hxh
  refine ⟨_, _, shareLoop_tilePositions hx hweven hheven hbits, ?_⟩
  rcases exec_randshare_cases gd x.width x.height s with ⟨hdim, -⟩ | ⟨-, hodd, -⟩ | ⟨-, -, hshort, -⟩ | ⟨-, -, -, e⟩
  · omega
  · omega
  · exact nomatch hshort.symm.trans hbits
  · exact e

end Sys2Proof.Machine
end

section
/-!
PROOFS of the family 42_share_generator.md. RANDSHARE with good operands completes when the stream has the draws
(`exec_randshare_of_enough`), and a RANDSHARE that completes leaves the share grid (`exec_randshare_completes`). That is
a tiled grid, and so is the cipher: what is said here of tiled grids (their cells, their tiles, their exclusive or) gives
the share, the cipher and the recovered grid at once.
-/

namespace Sys2Proof.Machine

/-! The answers of RANDSHARE -/

/-- The stream has `n` more bits exactly when `n` is no more than what remains of it (R8, R112). -/
theorem rngShort_eq_false_iff {src : BitSource} {pos n : Nat} :
    rngShort src pos n = false ↔ ∀ k, remaining src pos = some k → n ≤ k := by
  cases hrem : remaining src pos with
  | none => simp [rngShort, hrem]
  | some k => simp [rngShort, hrem]

section
variable {s : State} {gd : Slot} {w h : Nat}

section
variable (hw : w ≤ s.cfg.maxW) (hh : h ≤ s.cfg.maxH) (hweven : w % 2 = 0) (hheven : h % 2 = 0)
include hw hh hweven hheven

/-- RANDSHARE with good operands and the draws it needs completes with the share grid (R110). -/
theorem exec_randshare_of_enough (hbits : rngShort s.rng s.rngPos (tileCount w h) = false) :
    exec (.randshare gd w h) s =
      .next ((s.setRngPos (s.rngPos + tileCount w h)).setSlot gd (some (shareGrid s.rng s.rngPos w h))).advance := by
  rcases exec_randshare_cases gd w h s with ⟨hdim, -⟩ | ⟨-, hodd, -⟩ | ⟨-, -, hshort, -⟩ | ⟨-, -, -, e⟩
  · omega
  · omega
  · exact nomatch hshort.symm.trans hbits
  · exact e

/-- RANDSHARE with good operands and too few draws empties its slot and the stream and takes RngExhausted (R112). -/
theorem exec_randshare_of_short (hshort : rngShort s.rng s.rngPos (tileCount w h) = true) :
    exec (.randshare gd w h) s =
      .next (((s.setRngPos (rngEnd s.rng s.rngPos)).setSlot gd none).enterFault .rngExhausted) := by
  rcases exec_randshare_cases gd w h s with ⟨hdim, -⟩ | ⟨-, hodd, -⟩ | ⟨-, -, -, e⟩ | ⟨-, -, hbits, -⟩
  · omega
  · omega
  · exact e
  · exact nomatch hshort.symm.trans hbits

end

/-- A RANDSHARE that leaves FAULT at 0 had even operands, and its slot holds the share grid of its draws (R110). -/
theorem exec_randshare_completes {t : State} (he : exec (.randshare gd w h) s = .next t) (ht : t.fault = 0) :
    w % 2 = 0 ∧ h % 2 = 0 ∧ t.slot gd = some (shareGrid s.rng s.rngPos w h) := by
  rcases exec_randshare_cases gd w h s with ⟨-, e⟩ | ⟨-, -, e⟩ | ⟨-, -, -, e⟩ | ⟨-, heven, -, e⟩ <;>
    cases e.symm.trans he
  · exact absurd ht (enterFault_fault_ne_zero _ _)
  · exact absurd ht (enterFault_fault_ne_zero _ _)
  · exact absurd ht (enterFault_fault_ne_zero _ _)
  · exact ⟨by omega, by omega, by simp⟩

end

/-- Settles O15, by the first two answers of RANDSHARE. -/
theorem randshareOperandFaults : Obligations.RandshareOperandFaults := by
  intro s gd w h
  rcases exec_randshare_cases gd w h s with ⟨hdim, e⟩ | ⟨hdim, hodd, e⟩ | ⟨hdim, heven, -⟩ | ⟨hdim, heven, -⟩
  · exact ⟨fun _ => e, fun hw hh _ => by omega⟩
  · exact ⟨fun hover => absurd hover hdim, fun _ _ _ => e⟩
  · exact ⟨fun hover => absurd hover hdim, fun _ _ hodd => absurd hodd heven⟩
  · exact ⟨fun hover => absurd hover hdim, fun _ _ hodd => absurd hodd heven⟩

/-- Settles O16: a finite stream is short, and an endless one never is. -/
theorem randshareExhaustion : Obligations.RandshareExhaustion := by
  intro s gd w h hw hh hweven hheven
  refine ⟨fun bits hrng hfew => ?_, fun n hrng => ?_⟩
  · have hshort : rngShort s.rng s.rngPos (tileCount w h) = true := by
      rw [hrng]
      exact decide_eq_true hfew
    refine ⟨?_, step_of_halted (causeCode_ne_zero .rngExhausted)⟩
    rw [exec_randshare_of_short hw hh hweven hheven hshort, hrng]
    cases gd <;> rfl
  · have hbits : rngShort s.rng s.rngPos (tileCount w h) = false := by rw [hrng]; rfl
    exact ⟨_, exec_randshare_of_enough hw hh hweven hheven hbits, by simp, by simp, by simp [State.valid]⟩

/-! Tiled grids and the share -/

theorem ne_inverse (b : Bit) : b ≠ inverse b := by cases b <;> decide

section
variable {h w i j : Nat} {lead : Nat → Nat → Bit}

/-- The cell `[a][b]` of the tile at (2i, 2j) of a tiled grid (R110, R120). -/
theorem tiledGrid_cell_in_tile (hi : i < h / 2) (hj : j < w / 2) {a b : Nat} (ha : a < 2) (hb : b < 2) :
    (tiledGrid h w lead).cell (2 * i + a) (2 * j + b) = tileCell (lead i j) (inverse (lead i j)) a b := by
  have hrow : (2 * i + a) / 2 = i ∧ (2 * i + a) % 2 = a := by omega
  have hcol : (2 * j + b) / 2 = j ∧ (2 * j + b) % 2 = b := by omega
  rw [tiledGrid_cell h w lead _ _ (by omega) (by omega), hrow.1, hrow.2, hcol.1, hcol.2]

/-- The tile at (2i, 2j) of a tiled grid leads with its leading bit (R110, R120). -/
theorem tiledGrid_leading_cell (hi : i < h / 2) (hj : j < w / 2) :
    (tiledGrid h w lead).cell (2 * i) (2 * j) = lead i j :=
  tiledGrid_cell_in_tile hi hj (a := 0) (b := 0) (by decide) (by decide)

/-- Every tile of a tiled grid is diagonal-complementary (R113, R123). -/
theorem diagonalTile_tiledGrid (hi : i < h / 2) (hj : j < w / 2) :
    DiagonalTile (tiledGrid h w lead) (2 * i) (2 * j) := by
  have h01 := tiledGrid_cell_in_tile (lead := lead) hi hj (a := 0) (b := 1) (by decide) (by decide)
  have h10 := tiledGrid_cell_in_tile (lead := lead) hi hj (a := 1) (b := 0) (by decide) (by decide)
  have h11 := tiledGrid_cell_in_tile (lead := lead) hi hj (a := 1) (b := 1) (by decide) (by decide)
  refine ⟨(tiledGrid_leading_cell hi hj).trans h11.symm, h01.trans h10.symm, ?_⟩
  rw [tiledGrid_leading_cell hi hj]
  exact (ne_inverse _).trans_eq h01.symm

/-- A tiled grid of even size is determined by the leading bits of its tiles (R110). -/
theorem tiledGrid_congr {lead' : Nat → Nat → Bit} (hheven : h % 2 = 0) (hweven : w % 2 = 0)
    (hlead : ∀ i j, i < h / 2 → j < w / 2 → lead' i j = lead i j) : tiledGrid h w lead' = tiledGrid h w lead := by
  refine Grid.ext_cells (tiledGrid_wf ..) (tiledGrid_wf ..) rfl rfl fun r c (hr : r < h) (hc : c < w) => ?_
  rw [tiledGrid_cell h w _ r c hr hc, tiledGrid_cell h w _ r c hr hc, hlead _ _ (by omega) (by omega)]

/-- The draw of a tile is one of the `T` draws (R111). -/
theorem tileNumber_lt (hi : i < h / 2) (hj : j < w / 2) : i * (w / 2) + j < tileCount w h := by
  rw [tileCount, Nat.mul_comm (w / 2), ← length_tilePositions]
  exact (List.getElem?_eq_some_iff.1 (tilePositions_getElem? hi hj)).1

/-- Streams that deliver the same `T` draws give the same share (R113). -/
theorem shareGrid_congr {src src' : BitSource} {pos pos' : Nat} (hweven : w % 2 = 0) (hheven : h % 2 = 0)
    (hdraws : ∀ k, k < tileCount w h → bitAt src' (pos' + k) = bitAt src (pos + k)) :
    shareGrid src' pos' w h = shareGrid src pos w h :=
  tiledGrid_congr hheven hweven fun _ _ hi hj => hdraws _ (tileNumber_lt hi hj)

end

/-- Settles O14: the slot gets the tiled grid of the draws. -/
theorem randshareFillsTheSlotFromTheStream : Obligations.RandshareFillsTheSlotFromTheStream := by
  intro s gd w h hw hh hweven hheven henough
  refine ⟨shareGrid s.rng s.rngPos w h,
    exec_randshare_of_enough hw hh hweven hheven (rngShort_eq_false_iff.2 henough), shareGrid_wf .., rfl, rfl,
    fun i j hi hj => ?_⟩
  have hcell {a b : Nat} (ha : a < 2) (hb : b < 2) :=
    tiledGrid_cell_in_tile (lead := fun i j => bitAt s.rng (s.rngPos + (i * (w / 2) + j))) hi hj ha hb
  exact ⟨hcell (a := 0) (b := 0) (by decide) (by decide), hcell (a := 0) (b := 1) (by decide) (by decide),
    hcell (a := 1) (b := 0) (by decide) (by decide), hcell (a := 1) (b := 1) (by decide) (by decide)⟩

/-- Settles O17: both states get the share grid of their draws, which are the same. -/
theorem shareIsDiagonalAndDependsOnItsDrawsOnly : Obligations.ShareIsDiagonalAndDependsOnItsDrawsOnly := by
  intro s t gd w h _ he ht
  obtain ⟨hweven, hheven, hslot⟩ := exec_randshare_completes he ht
  refine ⟨_, hslot, fun i j hi hj => ⟨diagonalTile_tiledGrid hi hj, tiledGrid_leading_cell hi hj⟩,
    fun s' t' gd' _ he' ht' hdraws => ?_⟩
  obtain ⟨-, -, hslot'⟩ := exec_randshare_completes he' ht'
  rw [hslot', shareGrid_congr hweven hheven hdraws]

/-! A true share recovers the source -/

/-- The exclusive or of two tiles of `set_tile` is uniform: it is that of their leading bits in every cell (R131). -/
theorem bitXor_tileCell (l m : Bit) (a b : Nat) :
    bitXor (tileCell l (inverse l) a b) (tileCell m (inverse m) a b) = bitXor l m := by
  by_cases hab : a = b
  · simp [tileCell, hab]
  · simp [tileCell, hab, bitXor, inverse]

theorem bitXor_bitXor_self (a b : Bit) : bitXor (bitXor a b) b = a := by cases a <;> cases b <;> rfl

/-- The leading bit of a cipher tile (R120, R122). -/
theorem cipherLead_eq_bitXor (src share : Grid) (i j : Nat) :
    cipherLead src share i j = bitXor (src.cell i j) (share.cell (2 * i) (2 * j)) := rfl

/-- The exclusive or of two tiled grids of one size, cell by cell (R131). -/
theorem xorGrid_tiledGrid_cell {h w : Nat} (lead lead' : Nat → Nat → Bit) {r c : Nat} (hr : r < h) (hc : c < w) :
    (xorGrid (tiledGrid h w lead) (tiledGrid h w lead')).cell r c =
      bitXor (lead (r / 2) (c / 2)) (lead' (r / 2) (c / 2)) := by
  rw [xorGrid, tiledGrid_height, tiledGrid_width, gridOf_cell h w _ r c hr hc, tiledGrid_cell h w lead r c hr hc,
    tiledGrid_cell h w lead' r c hr hc, bitXor_tileCell]

/-- Encoding with a tiled grid of even size and taking the exclusive or with it again gives the source back in every
cell of the tile (R132). -/
theorem xorGrid_cipherGrid_tiledGrid_cell (src : Grid) {h w : Nat} (lead : Nat → Nat → Bit) (hheven : h % 2 = 0)
    (hweven : w % 2 = 0) {r c : Nat} (hr : r < h) (hc : c < w) :
    (xorGrid (cipherGrid src (tiledGrid h w lead)) (tiledGrid h w lead)).cell r c = src.cell (r / 2) (c / 2) := by
  rw [cipherGrid, tiledGrid_height, tiledGrid_width, xorGrid_tiledGrid_cell _ _ hr hc, cipherLead_eq_bitXor,
    tiledGrid_leading_cell (by omega) (by omega), bitXor_bitXor_self]

section
variable {s : State} {g g₁ g₂ : Slot} {x y : Grid} (h₁ : s.slot g₁ = some x) (h₂ : s.slot g₂ = some y)
include h₁ h₂

/-- ENCODE of a source and a grid of double its size completes with the cipher (R120). -/
theorem exec_encode_of_sizes (hw : y.width = 2 * x.width) (hh : y.height = 2 * x.height) :
    exec (.encode g g₁ g₂) s = .next (s.setSlot g (some (cipherGrid x y))).advance := by
  rcases exec_encode_cases g g₁ g₂ s with ⟨hnone, -⟩ | ⟨S, R, hS, hR, hsize, -⟩ | ⟨S, R, hS, hR, -, -, e⟩
  · simp [h₁, h₂] at hnone
  · cases hS.symm.trans h₁
    cases hR.symm.trans h₂
    omega
  · cases hS.symm.trans h₁
    cases hR.symm.trans h₂
    exact e

/-- RECOVER of two grids of one size completes with their exclusive or (R130). -/
theorem exec_recover_of_sizes (hw : x.width = y.width) (hh : x.height = y.height) :
    exec (.recover g g₁ g₂) s = .next (s.setSlot g (some (xorGrid x y))).advance := by
  rcases exec_recover_cases g g₁ g₂ s with ⟨hnone, -⟩ | ⟨A, B, hA, hB, hsize, -⟩ | ⟨A, B, hA, hB, -, -, e⟩
  · simp [h₁, h₂] at hnone
  · cases hA.symm.trans h₁
    cases hB.symm.trans h₂
    omega
  · cases hA.symm.trans h₁
    cases hB.symm.trans h₂
    exact e

end

/-- Settles O28: the three commands complete in turn, and the tiles of the share cancel in the recovered grid. -/
theorem trueShareRecoversTheDoubledSource : Obligations.TrueShareRecoversTheDoubledSource := by
  intro s gs gr gc gx S hS hrs hcr hw hh henough
  have hweven : 2 * S.width % 2 = 0 := Nat.mul_mod_right ..
  have hheven : 2 * S.height % 2 = 0 := Nat.mul_mod_right ..
  have hbits : rngShort s.rng s.rngPos (tileCount (2 * S.width) (2 * S.height)) = false := by
    rw [rngShort_eq_false_iff]
    simpa [tileCount] using henough
  have hshare := exec_randshare_of_enough (gd := gr) hw hh hweven hheven hbits
  set R := shareGrid s.rng s.rngPos (2 * S.width) (2 * S.height)
  set t := ((s.setRngPos (s.rngPos + tileCount (2 * S.width) (2 * S.height))).setSlot gr (some R)).advance
  have htS : t.slot gs = some S := by simp [t, State.slot_setSlot_of_ne _ _ _ _ hrs.symm, hS]
  have htR : t.slot gr = some R := by simp [t]
  have huC : (t.setSlot gc (some (cipherGrid S R))).advance.slot gc = some (cipherGrid S R) := by simp
  have huR : (t.setSlot gc (some (cipherGrid S R))).advance.slot gr = some R := by
    simp [State.slot_setSlot_of_ne _ _ _ _ hcr.symm, htR]
  exact ⟨t, _, _, xorGrid (cipherGrid S R) R, hshare, exec_encode_of_sizes htS htR rfl rfl,
    exec_recover_of_sizes huC huR rfl rfl, by simp, rfl, rfl,
    fun r c hr hc => xorGrid_cipherGrid_tiledGrid_cell S _ hheven hweven hr hc⟩

end Sys2Proof.Machine
end

section
/-!
PROOFS of the family 43_encoder.md. An ENCODE that completes leaves the cipher (`exec_encode_completes`), a tiled grid
whose leading bits are the exclusive or of source and share. What R122 to R124 say of one cell is a fact about the tile
of that cell (`cipherGrid_cell_in_tile`), and the loop of R120 ends in the cipher as every loop of `set_tile` does that
reaches all tiles (`AgreesOutsideTiles`).
-/

namespace Sys2Proof.Machine

/-! The answers of ENCODE -/

/-- An ENCODE that leaves FAULT at 0 had two sources of the right sizes, and its slot holds their cipher (R120). -/
theorem exec_encode_completes {s t : State} {gd gs gr : Slot} (he : exec (.encode gd gs gr) s = .next t)
    (ht : t.fault = 0) :
    ∃ S R, s.slot gs = some S ∧ s.slot gr = some R ∧ R.width = 2 * S.width ∧ R.height = 2 * S.height ∧
      t.slot gd = some (cipherGrid S R) := by
  rcases exec_encode_cases gd gs gr s with ⟨-, e⟩ | ⟨-, -, -, -, -, e⟩ | ⟨S, R, hS, hR, hw, hh, e⟩ <;>
    cases e.symm.trans he
  · exact absurd ht (enterFault_fault_ne_zero _ _)
  · exact absurd ht (enterFault_fault_ne_zero _ _)
  · exact ⟨S, R, hS, hR, hw, hh, by simp⟩

/-- Settles O20, by the first two answers of ENCODE. -/
theorem encodeFaults : Obligations.EncodeFaults := by
  intro s gd gs gr
  rcases exec_encode_cases gd gs gr s with ⟨hnone, e⟩ | ⟨S, R, hS, hR, hsize, e⟩ | ⟨S, R, hS, hR, hw, hh, -⟩
  · refine ⟨fun _ => e, fun S R hS hR _ => ?_⟩
    simp [hS, hR] at hnone
  · exact ⟨fun hnone => by simp [hS, hR] at hnone, fun _ _ _ _ _ => e⟩
  · refine ⟨fun hnone => by simp [hS, hR] at hnone, fun S' R' hS' hR' hsize => ?_⟩
    cases hS.symm.trans hS'
    cases hR.symm.trans hR'
    omega

/-! The cells of the cipher -/

/-- The tile of `set_tile` as an exclusive or: its cell `[a][b]` is the leading bit, turned over by `a` and by `b`
(R122). -/
theorem tileCell_bitNum (l a b : Bit) : tileCell l (inverse l) (bitNum a) (bitNum b) = bitXor (bitXor l a) b := by
  cases l <;> cases a <;> cases b <;> rfl

/-- The tile with the inverse leading bit is the inverse tile (R124). -/
theorem tileCell_inverse (l : Bit) (a b : Nat) :
    tileCell (inverse l) (inverse (inverse l)) a b = inverse (tileCell l (inverse l) a b) := by
  by_cases hab : a = b <;> simp [tileCell, hab]

/-- Turning one operand of an exclusive or over turns the result over (R6). -/
theorem bitXor_eq_inverse_of_ne {a b : Bit} (h : a ≠ b) (c : Bit) : bitXor a c = inverse (bitXor b c) := by
  revert h
  cases a <;> cases b <;> cases c <;> decide

section
variable {S R : Grid} {i j : Nat} (hw : R.width = 2 * S.width) (hh : R.height = 2 * S.height) (hi : i < S.height)
  (hj : j < S.width)
include hw hh hi hj

/-- The cell `[a][b]` of the cipher tile of source pixel (i, j) (R120). -/
theorem cipherGrid_cell_in_tile {a b : Nat} (ha : a < 2) (hb : b < 2) :
    (cipherGrid S R).cell (2 * i + a) (2 * j + b) =
      tileCell (cipherLead S R i j) (inverse (cipherLead S R i j)) a b :=
  tiledGrid_cell_in_tile (by omega) (by omega) ha hb

/-- The cipher tile of source pixel (i, j) leads with the exclusive or of the two bits (R122). -/
theorem cipherGrid_leading_cell :
    (cipherGrid S R).cell (2 * i) (2 * j) = bitXor (S.cell i j) (R.cell (2 * i) (2 * j)) :=
  tiledGrid_leading_cell (by omega) (by omega)

end

/-- Settles O19: the slot gets the cipher, read tile by tile. -/
theorem encodeMakesTheCipher : Obligations.EncodeMakesTheCipher := by
  intro s gd gs gr S R hS hR hw hh
  refine ⟨cipherGrid S R, exec_encode_of_sizes hS hR hw hh, cipherGrid_wf S R, rfl, rfl, fun i j hi hj a b => ?_,
    fun i j => cipherGrid_leading_cell hw hh⟩
  rw [cipherGrid_cell_in_tile hw hh hi hj (bitNum_lt a) (bitNum_lt b), tileCell_bitNum, cipherLead_eq_bitXor]

/-- Settles O21: the cipher is a tiled grid of the share's size. -/
theorem cipherTilesAreDiagonal : Obligations.CipherTilesAreDiagonal := by
  intro s t gd gs gr R _ hR he ht
  obtain ⟨S, R', -, hR', -, -, hslot⟩ := exec_encode_completes he ht
  cases hR'.symm.trans hR
  exact ⟨cipherGrid S R, hslot, rfl, rfl, fun i j hi hj => diagonalTile_tiledGrid (by omega) (by omega)⟩

/-- A command that completes by writing slot `gd` leaves every other slot (R23). -/
theorem slot_setSlot_advance_of_ne {s : State} {gd g : Slot} {x y : Option Grid} (hne : gd ≠ g) (hg : s.slot g = y) :
    (s.setSlot gd x).advance.slot g = y := by
  rw [State.slot_advance, State.slot_setSlot_of_ne _ _ _ _ hne.symm, hg]

/-- Settles O22: the leading bits of the two ciphers are equal or inverse as the source bits are, and a tile follows
its leading bit. -/
theorem sameShareTwoSources : Obligations.SameShareTwoSources := by
  intro s s' gd gs gr gd' gs' gr' S S' R hS hS' hR hR' hw hh hSw hSh
  have hw' : R.width = 2 * S'.width := by rw [hSw, hw]
  have hh' : R.height = 2 * S'.height := by rw [hSh, hh]
  refine ⟨_, _, cipherGrid S R, cipherGrid S' R, exec_encode_of_sizes hS hR hw hh,
    exec_encode_of_sizes hS' hR' hw' hh', by simp, by simp, fun hne => slot_setSlot_advance_of_ne hne hR,
    fun hne => slot_setSlot_advance_of_ne hne hR', fun i j a b hi hj ha hb => ?_⟩
  rw [cipherGrid_cell_in_tile hw hh hi hj ha hb, cipherGrid_cell_in_tile hw' hh' (by omega) (by omega) ha hb,
    cipherLead_eq_bitXor, cipherLead_eq_bitXor]
  refine ⟨fun heq => by rw [heq], fun hne => ?_⟩
  rw [bitXor_eq_inverse_of_ne hne, tileCell_inverse]

/-! The loop of R120 -/

/-- The position of the cipher tile of source pixel (i, j) (R120). -/
def cipherPos (p : Nat × Nat) : Nat × Nat := (2 * p.1, 2 * p.2)

/-- Two grids that agree outside some tiles agree outside more. -/
theorem AgreesOutsideTiles.mono {ps qs : List (Nat × Nat)} {x y : Grid} (h : AgreesOutsideTiles ps x y)
    (hsub : ps ⊆ qs) : AgreesOutsideTiles qs x y :=
  { h with cells := fun r c hout => h.cells r c fun hin => hout (hsub hin) }

/-- The loop of R120 ends in the grid `y` when `y` holds the cipher tile of every visited pixel and differs from the
starting grid in visited tiles only. -/
theorem cipherLoop_eq {S R x y : Grid} {ps : List (Nat × Nat)} (hagree : AgreesOutsideTiles (ps.map cipherPos) x y)
    (htiles : ∀ i j, (i, j) ∈ ps → TileFits y (2 * i) (2 * j) ∧
      setTile y (2 * i) (2 * j) (cipherLead S R i j) (inverse (cipherLead S R i j)) = y) :
    cipherLoop S R ps x = y := by
  induction ps generalizing x with
  | nil => exact hagree.eq_of_nil
  | cons p ps ih =>
    obtain ⟨i, j⟩ := p
    obtain ⟨hfit, hy⟩ := htiles i j List.mem_cons_self
    exact ih (hagree.setTile hfit hy) fun i j hmem => htiles i j (List.mem_cons_of_mem _ hmem)

/-- The loop of R120, from any grid of the share's size and in any order that reaches exactly the source pixels, leaves
the cipher (R121). -/
theorem cipherLoop_eq_cipherGrid {S R x : Grid} {ps : List (Nat × Nat)} (hw : R.width = 2 * S.width)
    (hh : R.height = 2 * S.height) (hx : x.wf) (hxw : x.width = R.width) (hxh : x.height = R.height)
    (hps : ∀ i j, (i, j) ∈ ps ↔ i < S.height ∧ j < S.width) : cipherLoop S R ps x = cipherGrid S R := by
  have hall : tilePositions R.width R.height ⊆ ps.map cipherPos := by
    rintro ⟨row, col⟩ hmem
    obtain ⟨k, hk⟩ := List.getElem?_of_mem hmem
    obtain ⟨i, j, hi, hj, -, rfl, rfl⟩ := exists_tile_of_getElem?_tilePositions hk
    exact List.mem_map_of_mem (f := cipherPos) ((hps i j).2 (by omega))
  have hagree : AgreesOutsideTiles (tilePositions R.width R.height) x (cipherGrid S R) :=
    agreesOutsideTiles_tilePositions hx (cipherGrid_wf S R) hxw hxh (by simp; omega) (by simp; omega)
  refine cipherLoop_eq (hagree.mono hall) fun i j hmem => ?_
  obtain ⟨hi, hj⟩ := (hps i j).1 hmem
  have hfit : TileFits (cipherGrid S R) (2 * i) (2 * j) := tileFits_of_lt (by simp; omega) (by simp; omega)
  exact ⟨hfit, setTile_tiledGrid (cipherLead S R) hfit⟩

/-- Settles O23: ENCODE completes with the cipher, and so does the loop. -/
theorem encodeIsTheSetTileLoopInAnyOrder : Obligations.EncodeIsTheSetTileLoopInAnyOrder := by
  intro s gd gs gr S R x ps hS hR hw hh hx hxw hxh hps
  rw [cipherLoop_eq_cipherGrid hw hh hx hxw hxh hps]
  exact exec_encode_of_sizes hS hR hw hh

end Sys2Proof.Machine
end

section
/-!
PROOFS of the family 44_recoverer.md. RECOVER has three answers (`exec_recover_cases`), each fixed by its sources
(`exec_recover_of_none`, `exec_recover_of_sizes_ne`, `exec_recover_of_sizes`), and none depends on their order. R131 is a
fact about a tile of the exclusive or (`uniformTile_xorGrid`), and R132 is R131 for a cipher and its share.
-/

namespace Sys2Proof.Machine

/-! The exclusive or of two grids -/

theorem bitXor_comm (a b : Bit) : bitXor a b = bitXor b a := by cases a <;> cases b <;> rfl

/-- Turning both operands of an exclusive or over leaves the result (R131: `¬p XOR ¬q = p XOR q`). -/
theorem bitXor_eq_of_ne_of_ne {p p' q q' : Bit} (hp : p ≠ p') (hq : q ≠ q') : bitXor p' q' = bitXor p q := by
  rw [bitXor_eq_inverse_of_ne hp.symm, bitXor_comm p, bitXor_eq_inverse_of_ne hq.symm, bitXor_comm q]
  exact Bool.not_not _

section
variable {A B : Grid}

/-- The cells of the exclusive or (R130). -/
theorem xorGrid_cell {r c : Nat} (hr : r < A.height) (hc : c < A.width) :
    (xorGrid A B).cell r c = bitXor (A.cell r c) (B.cell r c) := gridOf_cell A.height A.width _ r c hr hc

/-- The exclusive or of two grids of one size does not depend on their order (R133). -/
theorem xorGrid_comm (hw : A.width = B.width) (hh : A.height = B.height) : xorGrid A B = xorGrid B A := by
  refine Grid.ext_cells (xorGrid_wf A B) (xorGrid_wf B A) hw hh fun r c (hr : r < A.height) (hc : c < A.width) => ?_
  rw [xorGrid_cell hr hc, xorGrid_cell (by omega) (by omega), bitXor_comm]

/-- The exclusive or of two diagonal-complementary tiles has that of their leading bits in all four cells (R131). -/
theorem uniformTile_xorGrid {r c : Nat} (hr : r + 1 < A.height) (hc : c + 1 < A.width) (hA : DiagonalTile A r c)
    (hB : DiagonalTile B r c) : UniformTile (xorGrid A B) r c (bitXor (A.cell r c) (B.cell r c)) := by
  obtain ⟨hAdiag, hAoff, hAne⟩ := hA
  obtain ⟨hBdiag, hBoff, hBne⟩ := hB
  have hr' : r < A.height := by omega
  have hc' : c < A.width := by omega
  have hoff : bitXor (A.cell r (c + 1)) (B.cell r (c + 1)) = bitXor (A.cell r c) (B.cell r c) :=
    bitXor_eq_of_ne_of_ne hAne hBne
  refine ⟨xorGrid_cell hr' hc', ?_, ?_, ?_⟩
  · rw [xorGrid_cell hr' hc, hoff]
  · rw [xorGrid_cell hr hc', ← hAoff, ← hBoff, hoff]
  · rw [xorGrid_cell hr hc, ← hAdiag, ← hBdiag]

end

/-! The answers of RECOVER -/

section
variable {s : State} {gd ga gb : Slot}

/-- RECOVER with an invalid source takes SlotInvalid (R130, R176). -/
theorem exec_recover_of_none (hnone : s.slot ga = none ∨ s.slot gb = none) :
    exec (.recover gd ga gb) s = .next (s.enterFault .slotInvalid) := by
  rcases exec_recover_cases gd ga gb s with ⟨-, e⟩ | ⟨A, B, hA, hB, -, -⟩ | ⟨A, B, hA, hB, -, -, -⟩
  · exact e
  · simp [hA, hB] at hnone
  · simp [hA, hB] at hnone

/-- RECOVER of two grids of different sizes takes DimMismatch (R130, R177). -/
theorem exec_recover_of_sizes_ne {A B : Grid} (hA : s.slot ga = some A) (hB : s.slot gb = some B)
    (hsize : A.width ≠ B.width ∨ A.height ≠ B.height) :
    exec (.recover gd ga gb) s = .next (s.enterFault .dimMismatch) := by
  rcases exec_recover_cases gd ga gb s with ⟨hnone, -⟩ | ⟨-, -, -, -, -, e⟩ | ⟨A', B', hA', hB', hw, hh, -⟩
  · simp [hA, hB] at hnone
  · exact e
  · cases hA'.symm.trans hA
    cases hB'.symm.trans hB
    omega

end

/-- Settles O25, by the two faults of RECOVER. -/
theorem recoverFaults : Obligations.RecoverFaults :=
  fun _ _ _ _ => ⟨exec_recover_of_none, fun _ _ => exec_recover_of_sizes_ne⟩

/-- Settles O24: the slot gets the exclusive or. -/
theorem recoverXorsTheCells : Obligations.RecoverXorsTheCells := by
  intro s gd ga gb A B hA hB hw hh
  exact ⟨xorGrid A B, exec_recover_of_sizes hA hB hw hh, xorGrid_wf A B, rfl, rfl, fun r c => xorGrid_cell⟩

/-- Settles O29: each of the three answers is the answer to the exchanged sources. -/
theorem recoverIsSymmetric : Obligations.RecoverIsSymmetric := by
  intro s gd ga gb
  rcases exec_recover_cases gd ga gb s with ⟨hnone, e⟩ | ⟨A, B, hA, hB, hsize, e⟩ | ⟨A, B, hA, hB, hw, hh, e⟩
  · rw [e, exec_recover_of_none hnone.symm]
  · rw [e, exec_recover_of_sizes_ne hB hA (hsize.imp Ne.symm Ne.symm)]
  · rw [e, exec_recover_of_sizes hB hA hw.symm hh.symm, xorGrid_comm hw hh]

/-! Tiles of the recovered grid -/

/-- Settles O26: the leading bits are equal or not, and all four cells follow. -/
theorem xorOfDiagonalTilesIsUniform : Obligations.XorOfDiagonalTilesIsUniform := by
  intro s gd ga gb A B hA hB hw hh
  refine ⟨_, xorGrid A B, exec_recover_of_sizes hA hB hw hh, by simp, fun r c _ _ hr hc hdA hdB => ?_⟩
  have huniform := uniformTile_xorGrid hr hc hdA hdB
  refine ⟨huniform, fun hsame => ?_, fun hopposite => ?_⟩
  · rwa [bitXor, if_pos hsame] at huniform
  · rwa [bitXor, if_neg hopposite] at huniform

/-- Settles O27: the share's leading bit cancels in the leading cell, and where the share's tile is
diagonal-complementary so is the cipher's, which makes the recovered tile uniform. -/
theorem recoverOfEncodeIsTheSource : Obligations.RecoverOfEncodeIsTheSource := by
  intro s gs gr gc gx S R hS hR hw hh hne
  have hC : (s.setSlot gc (some (cipherGrid S R))).advance.slot gc = some (cipherGrid S R) := by simp
  have hrecover := exec_recover_of_sizes (g := gx) hC (slot_setSlot_advance_of_ne hne hR) rfl rfl
  refine ⟨_, _, xorGrid (cipherGrid S R) R, exec_encode_of_sizes hS hR hw hh, hrecover,
    (recoverIsSymmetric _ gx gr gc).trans hrecover, by simp, rfl, rfl, fun i j hi hj => ?_⟩
  have hlead : bitXor ((cipherGrid S R).cell (2 * i) (2 * j)) (R.cell (2 * i) (2 * j)) = S.cell i j := by
    rw [cipherGrid_leading_cell hw hh hi hj, bitXor_bitXor_self]
  refine ⟨(xorGrid_cell (by simp; omega) (by simp; omega)).trans hlead, fun hdR => ?_⟩
  rw [← hlead]
  exact uniformTile_xorGrid (by simp; omega) (by simp; omega) (diagonalTile_tiledGrid (by omega) (by omega)) hdR

end Sys2Proof.Machine
end

section
/-!
PROOFS of the family 45_bitmap_adapter.md. SETSRC and SETDST and their words by their rows of R72; TOBG and FRBG by one
lemma for each of their three answers. R145 follows from what O31 says of TOBG and O33 of FRBG: FRBG writes 255 where a
cell is 1 and 0 where it is 0, and TOBG reads exactly the byte 255 as 1.
-/

namespace Sys2Proof.Machine

/-! SETSRC and SETDST -/

/-- A word decodes to the command that has its operands exactly when it matches that command's row (R72). -/
theorem matches_opcodeRow_iff_decode {w : Word} {i : Instr} (hops : withOperandsOf w i = i) :
    (opcodeRow i).Matches w ↔ decode w = .command i := by
  rw [decode_eq_command_iff, and_iff_left hops]
  exact matches_opcodeRow_iff i w

/-- The address of format A is `w[23:0]` (R71, R140). -/
theorem addrField_eq_setWidth (w : Word) : addrField w = w.setWidth 24 := by
  simp [addrField_eq_iff, field]

/-- A word with a bit set under the ones of a field has that field nonzero (R71). -/
theorem field_ne_zero_of_and_ne_zero {w mask : Word} {lo len : Nat} (hmask : mask.toNat = 2 ^ lo * (2 ^ len - 1))
    (hbits : w &&& mask ≠ 0) : field w lo len ≠ 0 := fun hzero => hbits <| BitVec.eq_of_toNat_eq <| by
  rw [BitVec.toNat_and, hmask, and_ones_eq_field, hzero]
  rfl

/-- A word of opcode 8 with a must-be-zero bit set is illegal (R82, R140, R141). -/
theorem decode_eq_illegal_of_base_bits {w : Word} (hop : w >>> 28 = 8) (hbits : w &&& 0x07000000 ≠ 0) :
    decode w = .illegal (.reservedBits 8) := by
  have hopcode : field w 28 4 = 8 := by
    rw [field_opcode_eq_shift, hop]
    rfl
  have hset : field w 24 3 ≠ 0 := field_ne_zero_of_and_ne_zero (by decide) hbits
  cases decode_cases w with
  | setsrc _ zero _ => exact absurd zero.1 hset
  | setdst _ zero _ => exact absurd zero.1 hset
  | reservedBits op is _ eq => rw [eq, ← is, hopcode]
  | _ => omega

/-- Settles O30, by the two rows, their must-be-zero bits and the one answer of each command. -/
theorem setsrcAndSetdstWriteTheBase : Obligations.SetsrcAndSetdstWriteTheBase :=
  ⟨fun w => matches_opcodeRow_iff_decode (i := .setsrc _) (congrArg Instr.setsrc (addrField_eq_setWidth w)),
    fun w => matches_opcodeRow_iff_decode (i := .setdst _) (congrArg Instr.setdst (addrField_eq_setWidth w)),
    fun _ => decode_eq_illegal_of_base_bits, exec_setsrc_eq, exec_setdst_eq⟩

/-! The answers of TOBG -/

section
variable {s : State} {gd : Slot} {w h : Nat}

/-- TOBG over capacity takes DimRange (R142, R174). -/
theorem exec_tobg_of_over_capacity (hover : s.cfg.maxW < w ∨ s.cfg.maxH < h) :
    exec (.tobg gd w h) s = .next (s.enterFault .dimRange) := by
  rcases exec_tobg_cases gd w h s with ⟨-, e⟩ | ⟨hdim, -⟩ | ⟨hdim, -⟩
  · exact e
  · exact absurd hover hdim
  · exact absurd hover hdim

section
variable (hw : w ≤ s.cfg.maxW) (hh : h ≤ s.cfg.maxH)
include hw hh

/-- TOBG of a buffer that reaches past the end of `BUF` takes AddrRange (R142, R179). -/
theorem exec_tobg_of_past_end (hout : s.cfg.bufBytes < s.srcBase.toNat + w * h) :
    exec (.tobg gd w h) s = .next (s.enterFault .addrRange) := by
  rcases exec_tobg_cases gd w h s with ⟨hdim, -⟩ | ⟨-, -, e⟩ | ⟨-, hin, -⟩
  · omega
  · exact e
  · omega

/-- TOBG of a buffer inside `BUF` completes with the grid of that buffer (R142). -/
theorem exec_tobg_of_inside (hin : s.srcBase.toNat + w * h ≤ s.cfg.bufBytes) :
    exec (.tobg gd w h) s = .next (s.setSlot gd (some (bufferGrid s w h))).advance := by
  rcases exec_tobg_cases gd w h s with ⟨hdim, -⟩ | ⟨-, hout, -⟩ | ⟨-, -, e⟩
  · omega
  · omega
  · exact e

end

end

/-- Settles O32, by the two faults of TOBG. -/
theorem tobgFaults : Obligations.TobgFaults :=
  fun _ _ _ _ => ⟨exec_tobg_of_over_capacity, exec_tobg_of_past_end⟩

/-- TOBG reads the byte 255 as 1 and every other byte as 0 (R142). -/
theorem bitOfIntensity_eq_true_iff (v : Byte) : bitOfIntensity v = true ↔ v = 255 := decide_eq_true_iff

/-- A cell of the grid TOBG makes is 1 exactly when the byte of its pixel is 255 (R142, R144). -/
theorem bufferGrid_cell_eq_true_iff (s : State) {w h row col : Nat} (hr : row < h) (hc : col < w) :
    (bufferGrid s w h).cell row col = true ↔ memRead s (pixelAddr s w row col) = 255 := by
  rw [bufferGrid, gridOf_cell h w _ row col hr hc, bitOfIntensity_eq_true_iff]

/-- Settles O31: the slot gets the grid of the buffer. -/
theorem tobgReadsThePixelBuffer : Obligations.TobgReadsThePixelBuffer := by
  intro s gd w h hw hh hin
  refine ⟨bufferGrid s w h, exec_tobg_of_inside hw hh hin, bufferGrid_wf s w h, rfl, rfl, fun row col hr hc => ?_⟩
  rw [bufferGrid_cell_eq_true_iff s hr hc, pixelAddr, Nat.add_assoc]

/-! The answers of FRBG -/

section
variable {s : State} {gs : Slot}

/-- FRBG of an invalid slot takes SlotInvalid (R143, R176). -/
theorem exec_frbg_of_none (hnone : s.slot gs = none) :
    exec (.frbg gs) s = .next (s.enterFault .slotInvalid) := by
  rcases exec_frbg_cases gs s with ⟨-, e⟩ | ⟨y, hy, -⟩ | ⟨y, hy, -⟩
  · exact e
  · exact nomatch hy.symm.trans hnone
  · exact nomatch hy.symm.trans hnone

section
variable {x : Grid} (hx : s.slot gs = some x)
include hx

/-- FRBG of a buffer that reaches past the end of `BUF` takes AddrRange (R143, R179). -/
theorem exec_frbg_of_past_end (hout : s.cfg.bufBytes < s.dstBase.toNat + 3 * x.width * x.height) :
    exec (.frbg gs) s = .next (s.enterFault .addrRange) := by
  rcases exec_frbg_cases gs s with ⟨hnone, -⟩ | ⟨y, -, -, e⟩ | ⟨y, hy, hin, -⟩
  · exact nomatch hnone.symm.trans hx
  · exact e
  · cases hy.symm.trans hx
    omega

/-- FRBG of a buffer inside `BUF` completes with the bytes of the grid written (R143). -/
theorem exec_frbg_of_inside (hin : s.dstBase.toNat + 3 * x.width * x.height ≤ s.cfg.bufBytes) :
    exec (.frbg gs) s = .next (s.setBuf (bufWrite s.buf s.dstBase.toNat (rgbBytes x))).advance := by
  rcases exec_frbg_cases gs s with ⟨hnone, -⟩ | ⟨y, hy, hout, -⟩ | ⟨y, hy, -, e⟩
  · exact nomatch hnone.symm.trans hx
  · cases hy.symm.trans hx
    omega
  · cases hy.symm.trans hx
    exact e

end

end

/-- Settles O34, by the two faults of FRBG. -/
theorem frbgFaults : Obligations.FrbgFaults :=
  fun _ _ => ⟨exec_frbg_of_none, fun _ => exec_frbg_of_past_end⟩

@[simp] theorem memRead_setBuf (s : State) (m : Memory) (a : Nat) : memRead (s.setBuf m) a = bufRead m a := rfl

/-- Settles O33: inside the written range the bytes of the grid stand, outside it those of before. -/
theorem frbgWritesTheRgbBuffer : Obligations.FrbgWritesTheRgbBuffer := by
  intro s gs x hx hin
  refine ⟨_, exec_frbg_of_inside hx hin, fun row col ch hr hc hch => ?_, fun a ha => ?_⟩
  · have hbyte := bufLookup_bufWrite_rgbBytes s hr hc hch
    rw [rgbAddr, ← Nat.add_assoc] at hbyte
    rw [bufRead, hbyte, Option.getD_some, intensityOfBit]
  · rw [← rgbBytes_length] at ha
    exact bufRead_bufWrite_outside s.buf _ _ a ha

/-! The round trip (R145) -/

/-- The pixels of a grid are numbered below their count (R144). -/
theorem pixelNumber_lt {w h row col : Nat} (hr : row < h) (hc : col < w) : row * w + col < w * h := by
  rw [Nat.mul_comm row, Nat.mul_comm w h]
  exact Nat.mul_add_lt_mul_of_lt_of_lt hr hc

/-- A byte of 0 or 255 is the intensity of the bit that says whether it is 255 (R142, R143). -/
theorem intensity_of_black_or_white {v : Byte} {b : Bit} (hv : v = 0 ∨ v = 255) (hb : b = true ↔ v = 255) :
    (if b = true then 255 else 0) = v := by
  rcases hv with rfl | rfl
  · exact if_neg fun h => nomatch hb.1 h
  · exact if_pos (hb.2 rfl)

/-- The intensity of a bit is 255 exactly when the bit is 1 (R143). -/
theorem intensity_eq_255_iff (b : Bit) : (if b = true then 255 else 0 : Byte) = 255 ↔ b = true := by
  cases b <;> decide

/-- Settles O36: each direction puts what one command leaves into what the other one answers. -/
theorem adapterRoundTrip : Obligations.AdapterRoundTrip := by
  refine ⟨fun s g w h hw hh hsrc hdst hbytes => ?_, fun s s' g g' x ch hx hwf hdst hch hw hh hsrc => ?_⟩
  · obtain ⟨y, htobg, -, rfl, rfl, hcells⟩ := tobgReadsThePixelBuffer s g w h hw hh hsrc
    obtain ⟨m, hfrbg, hrgb, -⟩ := frbgWritesTheRgbBuffer (s.setSlot g (some y)).advance g y (by simp)
      (by simpa using hdst)
    refine ⟨_, _, htobg, hfrbg, fun col row ch hc hr hch => ?_⟩
    have hbyte := hrgb row col ch hr hc hch
    have hcell := hcells row col hr hc
    rw [Nat.add_assoc] at hcell
    rw [intensity_of_black_or_white (hbytes _ (pixelNumber_lt hr hc)) hcell] at hbyte
    simpa using hbyte
  · obtain ⟨m, hfrbg, hrgb, -⟩ := frbgWritesTheRgbBuffer s g x hx hdst
    obtain ⟨y, htobg, hy, hyw, hyh, hcells⟩ := tobgReadsThePixelBuffer s' g' x.width x.height hw hh hsrc
    refine ⟨_, hfrbg, fun hcopy => ⟨_, htobg, ?_⟩⟩
    have hyx : y = x := by
      refine Grid.ext_cells hy hwf hyw hyh fun row col hr hc => Bool.eq_iff_iff.2 ?_
      rw [hyh] at hr
      rw [hyw] at hc
      have hbyte := (hcopy _ (pixelNumber_lt hr hc)).trans (hrgb row col ch hr hc hch)
      rw [hcells row col hr hc, Nat.add_assoc, hbyte, intensity_eq_255_iff]
    simp [hyx]

end Sys2Proof.Machine
end

section
/-!
PROOFS of the family 46_grid_management.md. GNEW by one lemma for each of its two answers, from `exec_gnew_cases` (R160).
Within capacity the slot gets `blankGrid`, whose every cell is `DEFAULT_BIT`; over capacity GNEW takes DimRange.
-/

namespace Sys2Proof.Machine

/-- Every cell of the grid GNEW makes is `DEFAULT_BIT` (R160). -/
theorem blankGrid_cell? {w h r c : Nat} (hr : r < h) (hc : c < w) :
    (blankGrid w h).cell? r c = some Config.defaultBit :=
  gridOf_cell? h w _ r c hr hc

section
variable {s : State} {gd : Slot} {w h : Nat}

/-- GNEW over capacity takes DimRange (R160, R174). -/
theorem exec_gnew_of_over_capacity (hover : s.cfg.maxW < w ∨ s.cfg.maxH < h) :
    exec (.gnew gd w h) s = .next (s.enterFault .dimRange) := by
  rcases exec_gnew_cases gd w h s with ⟨-, e⟩ | ⟨hdim, -⟩
  · exact e
  · exact absurd hover hdim

/-- GNEW within capacity completes with the blank grid in its slot (R160). -/
theorem exec_gnew_of_within_capacity (hw : w ≤ s.cfg.maxW) (hh : h ≤ s.cfg.maxH) :
    exec (.gnew gd w h) s = .next (s.setSlot gd (some (blankGrid w h))).advance := by
  rcases exec_gnew_cases gd w h s with ⟨hover, -⟩ | ⟨-, e⟩
  · omega
  · exact e

end

/-- Settles O38: the fault entry of DimRange writes code 2 and the address of the command. -/
theorem gnewFault : Obligations.GnewFault :=
  fun _ _ _ _ => exec_gnew_of_over_capacity

/-- Settles O37: the slot gets the blank grid, and `DEFAULT_BIT` is 0. -/
theorem gnewMakesTheZeroGrid : Obligations.GnewMakesTheZeroGrid :=
  fun _ _ w h hw hh =>
    ⟨blankGrid w h, exec_gnew_of_within_capacity hw hh, blankGrid_wf w h, rfl, rfl, fun _ _ => blankGrid_cell?⟩

end Sys2Proof.Machine
end

section
/-!
PROOFS of the family 60_exceptions.md. The reserved words of R82 are the words that decode to no command
(`reservedWord_iff_illegal`), and these are the words on no row of R72. For the priority of R182 one lemma per command
says which fault conditions it can have at all (`faultCondition_<command>`), and one case analysis over the answers of
the commands says that the fault taken is that of the lowest condition that holds (`priorityCase`).
-/

namespace Sys2Proof.Machine

/-! The illegal words (R82, R173) -/

/-- Some bit under the ones of a field is set exactly when the field is not zero (R71). -/
theorem and_mask_ne_zero_iff (w : Word) {mask : Word} (lo len : Nat) (hmask : mask.toNat = 2 ^ lo * (2 ^ len - 1)) :
    w &&& mask ≠ 0 ↔ field w lo len ≠ 0 := by
  refine ⟨field_ne_zero_of_and_ne_zero hmask, fun hfield hzero => hfield ?_⟩
  have hand := and_ones_eq_field w lo len
  rw [← hmask, ← BitVec.toNat_and, hzero] at hand
  exact (Nat.mul_eq_zero.1 hand.symm).resolve_left (Nat.two_pow_pos lo).ne'

/-- The words R82 calls illegal are the words that decode to no command. -/
theorem reservedWord_iff_illegal (w : Word) : ReservedWord w ↔ ∃ why, decode w = .illegal why := by
  simp only [ReservedWord, ← field_opcode_eq_shift, and_mask_ne_zero_iff w 1 27 (mask := 0x0FFFFFFE) (by decide),
    and_mask_ne_zero_iff w 0 4 (mask := 0x0000000F) (by decide),
    and_mask_ne_zero_iff w 0 6 (mask := 0x0000003F) (by decide),
    and_mask_ne_zero_iff w 0 22 (mask := 0x003FFFFF) (by decide),
    and_mask_ne_zero_iff w 0 26 (mask := 0x03FFFFFF) (by decide),
    and_mask_ne_zero_iff w 24 3 (mask := 0x07000000) (by decide)]
  cases decode_cases w with
  | reservedOpcode op eq => exact iff_of_true (by omega) ⟨_, eq⟩
  | reservedBits op is bits eq => exact iff_of_true (by omega) ⟨_, eq⟩
  | _ op zero eq => exact iff_of_false (by omega) (by simp [eq])

/-- A word decodes to no command exactly when it matches no row (R72, R82). -/
theorem illegal_iff_no_row_matches (w : Word) :
    (∃ why, decode w = .illegal why) ↔ ∀ r ∈ opcodeTable, ¬r.Matches w := by
  obtain ⟨hrow, hcommand, -⟩ := decodeFollowsMaskAndMatch w
  constructor
  · rintro ⟨why, hwhy⟩ r hr hmatch
    obtain ⟨i, hi, -⟩ := hcommand r hr hmatch
    exact nomatch hwhy.symm.trans hi
  · intro hnone
    cases hdec : decode w with
    | illegal why => exact ⟨why, rfl⟩
    | command i => exact absurd (hrow i hdec) (hnone _ ((mem_opcodeTable_iff _).2 ⟨i, rfl⟩))

/-- Settles O5: both sides say that the word decodes to no command, for which the step takes IllegalCommand. -/
theorem illegalWordRaisesIllegalCommand : Obligations.IllegalWordRaisesIllegalCommand := by
  refine ⟨fun w => (reservedWord_iff_illegal w).trans (illegal_iff_no_row_matches w), fun s w hf hl hw hres => ?_⟩
  obtain ⟨why, hwhy⟩ := (reservedWord_iff_illegal w).1 hres
  exact step_of_illegal hf hl hw hwhy

/-! The fault conditions of each command (R171, R174 to R180) -/

section
variable (s : State) (c : Cause)

/-- INV has no fault condition (R102, R171). -/
theorem not_faultCondition_inv (b : Bit) : ¬FaultCondition (.inv b) s c := by
  cases c <;> simp [FaultCondition, dimsOf, sourcesOf]

/-- SETSRC has no fault condition (R140, R171). -/
theorem not_faultCondition_setsrc (a : Addr) : ¬FaultCondition (.setsrc a) s c := by
  cases c <;> simp [FaultCondition, dimsOf, sourcesOf]

/-- SETDST has no fault condition (R141, R171). -/
theorem not_faultCondition_setdst (a : Addr) : ¬FaultCondition (.setdst a) s c := by
  cases c <;> simp [FaultCondition, dimsOf, sourcesOf]

/-- The fault conditions of SETTILE (R103, R176, R178). -/
theorem faultCondition_settile (g : Slot) (row col : Nat) (l f : Bit) :
    FaultCondition (.settile g row col l f) s c ↔
      (c = .slotInvalid ∧ s.slot g = none) ∨ (c = .tileRange ∧ ∃ x, s.slot g = some x ∧ ¬TileFits x row col) := by
  have hfits (x : Grid) :
      (row % 2 = 1 ∨ col % 2 = 1 ∨ x.height ≤ row + 1 ∨ x.width ≤ col + 1) ↔ ¬TileFits x row col := by omega
  cases c <;> simp [FaultCondition, dimsOf, sourcesOf, hfits]

/-- The fault conditions of RANDSHARE (R110, R112, R174, R175, R180). -/
theorem faultCondition_randshare (gd : Slot) (w h : Nat) :
    FaultCondition (.randshare gd w h) s c ↔
      (c = .dimRange ∧ (w > s.cfg.maxW ∨ h > s.cfg.maxH)) ∨ (c = .oddDimension ∧ (w % 2 = 1 ∨ h % 2 = 1)) ∨
        (c = .rngExhausted ∧ rngShort s.rng s.rngPos (tileCount w h) = true) := by
  have hshort : (∃ k, remaining s.rng s.rngPos = some k ∧ k < w / 2 * (h / 2)) ↔
      rngShort s.rng s.rngPos (tileCount w h) = true := by
    rw [← Bool.not_eq_false, rngShort_eq_false_iff]
    simp [tileCount]
  cases c <;> simp [FaultCondition, dimsOf, sourcesOf, ← hshort]

/-- The fault conditions of ENCODE (R120, R176, R177). -/
theorem faultCondition_encode (gd gs gr : Slot) :
    FaultCondition (.encode gd gs gr) s c ↔
      (c = .slotInvalid ∧ (s.slot gs = none ∨ s.slot gr = none)) ∨
        (c = .dimMismatch ∧ ∃ S R, s.slot gs = some S ∧ s.slot gr = some R ∧
          (R.width ≠ 2 * S.width ∨ R.height ≠ 2 * S.height)) := by
  cases c <;> simp [FaultCondition, dimsOf, sourcesOf]

/-- The fault conditions of RECOVER (R130, R176, R177). -/
theorem faultCondition_recover (gd ga gb : Slot) :
    FaultCondition (.recover gd ga gb) s c ↔
      (c = .slotInvalid ∧ (s.slot ga = none ∨ s.slot gb = none)) ∨
        (c = .dimMismatch ∧ ∃ A B, s.slot ga = some A ∧ s.slot gb = some B ∧
          (A.width ≠ B.width ∨ A.height ≠ B.height)) := by
  cases c <;> simp [FaultCondition, dimsOf, sourcesOf]

/-- The fault conditions of TOBG (R142, R174, R179). -/
theorem faultCondition_tobg (gd : Slot) (w h : Nat) :
    FaultCondition (.tobg gd w h) s c ↔
      (c = .dimRange ∧ (w > s.cfg.maxW ∨ h > s.cfg.maxH)) ∨
        (c = .addrRange ∧ s.cfg.bufBytes < s.srcBase.toNat + w * h) := by
  cases c <;> simp [FaultCondition, dimsOf, sourcesOf]

/-- The fault conditions of FRBG (R143, R176, R179). -/
theorem faultCondition_frbg (gs : Slot) :
    FaultCondition (.frbg gs) s c ↔
      (c = .slotInvalid ∧ s.slot gs = none) ∨
        (c = .addrRange ∧ ∃ x, s.slot gs = some x ∧ s.cfg.bufBytes < s.dstBase.toNat + 3 * x.width * x.height) := by
  cases c <;> simp [FaultCondition, dimsOf, sourcesOf]

/-- The fault condition of GNEW (R160, R174). -/
theorem faultCondition_gnew (gd : Slot) (w h : Nat) :
    FaultCondition (.gnew gd w h) s c ↔ c = .dimRange ∧ (w > s.cfg.maxW ∨ h > s.cfg.maxH) := by
  cases c <;> simp [FaultCondition, dimsOf, sourcesOf]

end

/-! The priority of the faults (R182) -/

/-- The condition of `c` holds, and no condition with a lower code does. -/
def LowestCondition (i : Instr) (s : State) (c : Cause) : Prop :=
  FaultCondition i s c ∧ ∀ d, FaultCondition i s d → (causeCode c).toNat ≤ (causeCode d).toNat

/-- Different causes have different codes (R171), so only one is the lowest. -/
theorem LowestCondition.unique {i : Instr} {s : State} {c d : Cause} (hc : LowestCondition i s c)
    (hd : LowestCondition i s d) : c = d :=
  causeCode_injective (BitVec.eq_of_toNat_eq (Nat.le_antisymm (hc.2 d hd.1) (hd.2 c hc.1)))

/-- The two ends of a command by its fault conditions: none holds and it completes (R26), or it takes the fault of the
lowest one (R182), RngExhausted after emptying its slot and the stream (R112). -/
inductive PriorityCase (i : Instr) (s : State) : Prop where
  | noCondition (u : State) (h : exec i s = .next u.advance) (hfault : u.fault = s.fault)
      (hnone : ∀ c, ¬FaultCondition i s c)
  | lowest (u : State) (c : Cause) (h : exec i s = .next (u.enterFault c)) (hlow : LowestCondition i s c)

/-- Every command tests its conditions in the order of their codes. -/
theorem priorityCase (i : Instr) (s : State) : PriorityCase i s := by
  cases i with
  | inv b => exact .noCondition _ (exec_inv_eq b s) rfl fun c => not_faultCondition_inv s c b
  | settile g row col l f =>
    have hcond := fun c => faultCondition_settile s c g row col l f
    rcases exec_settile_cases g row col l f s with ⟨hnone, e⟩ | ⟨x, hx, hout, e⟩ | ⟨x, hx, hfit, e⟩
    · exact .lowest _ _ e (by simp [LowestCondition, causeCode, hcond, hnone])
    · exact .lowest _ _ e (by simpa [LowestCondition, causeCode, hcond, hx] using hout)
    · exact .noCondition _ e (by simp) (by simp [hcond, hx, hfit])
  | randshare gd w h =>
    have hcond := fun c => faultCondition_randshare s c gd w h
    rcases exec_randshare_cases gd w h s with
      ⟨hover, e⟩ | ⟨hdim, hodd, e⟩ | ⟨hdim, heven, hshort, e⟩ | ⟨hdim, heven, hbits, e⟩
    · exact .lowest _ _ e (by simp [LowestCondition, causeCode, hcond, hover, or_imp, forall_and])
    · exact .lowest _ _ e (by simp [LowestCondition, causeCode, hcond, hdim, hodd])
    · exact .lowest _ _ e (by simp [LowestCondition, causeCode, hcond, hdim, heven, hshort])
    · exact .noCondition _ e (by simp) (by simp [hcond, hdim, heven, hbits])
  | encode gd gs gr =>
    have hcond := fun c => faultCondition_encode s c gd gs gr
    rcases exec_encode_cases gd gs gr s with ⟨hnone, e⟩ | ⟨S, R, hS, hR, hsize, e⟩ | ⟨S, R, hS, hR, hw, hh, e⟩
    · exact .lowest _ _ e (by simp [LowestCondition, causeCode, hcond, hnone])
    · exact .lowest _ _ e (by simp [LowestCondition, causeCode, hcond, hS, hR, hsize])
    · exact .noCondition _ e (by simp) (by simp [hcond, hS, hR, hw, hh])
  | recover gd ga gb =>
    have hcond := fun c => faultCondition_recover s c gd ga gb
    rcases exec_recover_cases gd ga gb s with ⟨hnone, e⟩ | ⟨A, B, hA, hB, hsize, e⟩ | ⟨A, B, hA, hB, hw, hh, e⟩
    · exact .lowest _ _ e (by simp [LowestCondition, causeCode, hcond, hnone])
    · exact .lowest _ _ e (by simp [LowestCondition, causeCode, hcond, hA, hB, hsize])
    · exact .noCondition _ e (by simp) (by simp [hcond, hA, hB, hw, hh])
  | tobg gd w h =>
    have hcond := fun c => faultCondition_tobg s c gd w h
    rcases exec_tobg_cases gd w h s with ⟨hover, e⟩ | ⟨hdim, hout, e⟩ | ⟨hdim, hin, e⟩
    · exact .lowest _ _ e (by simp [LowestCondition, causeCode, hcond, hover])
    · exact .lowest _ _ e (by simp [LowestCondition, causeCode, hcond, hdim, hout])
    · exact .noCondition _ e (by simp) (by simp [hcond, hdim, hin])
  | frbg gs =>
    have hcond := fun c => faultCondition_frbg s c gs
    rcases exec_frbg_cases gs s with ⟨hnone, e⟩ | ⟨x, hx, hout, e⟩ | ⟨x, hx, hin, e⟩
    · exact .lowest _ _ e (by simp [LowestCondition, causeCode, hcond, hnone])
    · exact .lowest _ _ e (by simp [LowestCondition, causeCode, hcond, hx, hout])
    · exact .noCondition _ e (by simp) (by simp [hcond, hx, hin])
  | setsrc a => exact .noCondition _ (exec_setsrc_eq a s) rfl fun c => not_faultCondition_setsrc s c a
  | setdst a => exact .noCondition _ (exec_setdst_eq a s) rfl fun c => not_faultCondition_setdst s c a
  | gnew gd w h =>
    have hcond := fun c => faultCondition_gnew s c gd w h
    rcases exec_gnew_cases gd w h s with ⟨hover, e⟩ | ⟨hdim, e⟩
    · exact .lowest _ _ e (by simp [LowestCondition, causeCode, hcond, hover])
    · exact .noCondition _ e (by simp) (by simp [hcond, hdim])

/-- Settles O9: the conditions say which end the command has (`priorityCase`), and O8 what `pc` and FPC are then. -/
theorem lowestFaultCodeWins : Obligations.LowestFaultCodeWins := by
  intro i s hf
  obtain ⟨t, ht, hend⟩ := commandCompletesOrTakesOneFault i s hf
  cases priorityCase i s with
  | noCondition u h hfault hnone =>
    cases ht.symm.trans h
    have hzero : u.advance.fault = 0 := hfault.trans hf
    refine ⟨fun c hc _ => absurd hc (hnone c), fun _ => ⟨_, h, hzero, ?_⟩⟩
    rcases hend with ⟨-, -, hpc⟩ | ⟨c, hcode, -⟩
    · exact hpc
    · exact absurd (hcode.symm.trans hzero) (causeCode_ne_zero c)
  | lowest u d h hlow =>
    cases ht.symm.trans h
    refine ⟨fun c hc hle => ?_, fun hnone => absurd hlow.1 (hnone d)⟩
    obtain rfl : c = d := LowestCondition.unique ⟨hc, hle⟩ hlow
    rcases hend with ⟨hzero, -, -⟩ | ⟨-, -, hfpc, hpc, -⟩
    · exact absurd hzero (enterFault_fault_ne_zero u c)
    · exact ⟨_, h, rfl, hfpc, hpc⟩

end Sys2Proof.Machine
end

section
/-!
PROOFS of the family 70_reset_and_hazards.md, O44: in the halted state reset is the only way on.
-/

namespace Sys2Proof.Machine

/-- What the reset event leaves in the registers and the slots (R200). -/
theorem hostMove_reset_values (s : State) :
    ∃ t, hostMove .reset s = .next t ∧ t.pc = 0 ∧ (∀ g, t.valid g = false ∧ t.slot g = none) ∧
      t.res = false ∧ t.srcBase = 0 ∧ t.dstBase = 0 ∧ t.fault = 0 ∧ t.fpc = 0 := by
  have hslots : ∀ g, s.resetEvent.valid g = false ∧ s.resetEvent.slot g = none := fun g =>
    ⟨congrArg Option.isSome (State.slot_resetEvent s g), State.slot_resetEvent s g⟩
  exact ⟨s.resetEvent, rfl, rfl, hslots, rfl, rfl, rfl, rfl, rfl⟩

/-- A host move other than reset leaves FAULT as it is, halted or not (R200). -/
theorem hostMove_fault_eq {m : HostMove} {s t : State} (hm : m ≠ .reset) (h : hostMove m s = .next t) :
    t.fault = s.fault := by
  rcases hostMove_cases h with ⟨hreset, -⟩ | ⟨a, v, -, -, -, rfl⟩ | ⟨p, -, -, -, -, rfl⟩ | ⟨src, -, -, rfl⟩
  · exact absurd hreset hm
  · exact State.fault_setBuf s _
  · rfl
  · rfl

/-- No step leaves the halted state (R26, R27). -/
theorem step_ne_next_of_halted {s : State} (hf : s.fault ≠ 0) (t : State) : step s ≠ .next t := by
  rw [step_of_halted hf]
  nofun

/-- Settles O44: the registers after reset, then the halted state under a step and under every other host move. -/
theorem resetValuesAndTheOnlyWayOutOfHalt : Obligations.ResetValuesAndTheOnlyWayOutOfHalt := fun s =>
  ⟨hostMove_reset_values s, fun hf => ⟨step_ne_next_of_halted hf, fun _ _ => hostMove_fault_eq⟩⟩

end Sys2Proof.Machine
end
